-- ==== Sys2Proof/Word.lean ====
section
/-! DEFINITION. The machine's word and byte types (spec/00_scope.md R5, R8, R9, R12). -/

namespace Sys2Proof

/-- A word: 16 bits, bit 15 the most significant (R5, R8). Registers, addresses and instruction words are words. -/
abbrev Word := BitVec 16

/-- A byte: 8 bits, the unit an address names (R12). -/
abbrev Byte := BitVec 8

/-- The signed value of a word: two's complement, negative exactly when bit 15 is 1 (R9; D24, log 20, UNVERIFIED). -/
def Word.signed (v : Word) : Int := v.toInt

end Sys2Proof
end

