-- ==== Sys2Proof/Config.lean ====
section
/-! DEFINITION. The parameters of the model (spec/00_scope.md R7), with the value this model names for each. The spec itself
gives a value for STRICT_UNUSED_FIELDS and MEM_MAP. It gives none for the start of a run (PC_RESET, SP_RESET, MEM_INIT, the
registers and flags): there each value is a DESIGN CHOICE of the model, unsafe, named in its log entry. -/

namespace Sys2Proof

/-- The parameters of R7 that a step depends on. PC_RESET, SP_RESET and MEM_INIT are fields of `Machine.Launch`. -/
structure Parameters where
  /-- `STRICT_UNUSED_FIELDS`: non-zero unused instruction fields are refused (R89; D7) -/
  strictUnusedFields : Bool
  /-- `MEM_MAP`: which addresses are RAM (R60; D13) -/
  memMap : Word → Bool

end Sys2Proof

namespace Sys2Proof.Config

/-- `STRICT_UNUSED_FIELDS`, with the spec's own value `true` (R7, R89; D7, log 12). -/
def strictUnusedFields : Bool := true

/-- `MEM_MAP`, with the spec's own value: all 65,536 addresses are RAM (R7, R60; D13, log 14). -/
def memMap : Word → Bool := fun _ => true

/-- The parameters at the spec's own values: those of `Machine.step`. -/
def parameters : Parameters := { strictUnusedFields := strictUnusedFields, memMap := memMap }

/-- `PC_RESET`: the spec gives no value (R220, D1). DESIGN CHOICE, unsafe (log 3). -/
def pcReset : Word := 0x0000

/-- `SP_RESET`: the spec gives no value (R34, D2). DESIGN CHOICE, unsafe (log 4). -/
def spReset : Word := 0x0000

/-- R0 to R7 when a run starts: the spec says any value (R37, D3). DESIGN CHOICE, unsafe (log 1). -/
def registerReset : Word := 0x0000

/-- FLAGS when a run starts: the spec says any value (R37, D3, D21). DESIGN CHOICE, unsafe (log 2). -/
def flagsReset : Word := 0x0000

/-- What a byte of memory reads as that neither the launch nor a store has set: the spec says any value (R37, D4).
DESIGN CHOICE, unsafe (log 5). -/
def unlistedByte : Byte := 0x00

end Sys2Proof.Config
end

