-- ==== Sys2Proof/Syntax.lean ====
section
/-! DEFINITION. The instructions: one constructor per row of spec/opcode_table.json (spec/30_encoding.md R87, R90). -/

namespace Sys2Proof

/-- The eight general registers R0 to R7 (R21). None is special; no register number is illegal. -/
inductive Reg where
  | r0 | r1 | r2 | r3 | r4 | r5 | r6 | r7
deriving DecidableEq, Repr

/-- The 23 instructions, with their operands as the assembler writes them (R87), destination first.
A jump's `address` is a byte address that must fit 11 bits and a shift's `count` must fit 5 bits (R84, R97):
`Instr.wellFormed` says so (log 22). -/
inductive Instr where
  /-- `NOP` (R110) -/
  | nop
  /-- `LOAD Rd, #value` (R111); `value` is the whole second word -/
  | load (rd : Reg) (value : Word)
  /-- `MOV Rd, Rs` (R112) -/
  | mov (rd rs : Reg)
  /-- `ADD Rd, Rs` (R121) -/
  | add (rd rs : Reg)
  /-- `SUB Rd, Rs` (R122) -/
  | sub (rd rs : Reg)
  /-- `AND Rd, Rs` (R131) -/
  | and (rd rs : Reg)
  /-- `OR Rd, Rs` (R132) -/
  | or (rd rs : Reg)
  /-- `XOR Rd, Rs` (R133) -/
  | xor (rd rs : Reg)
  /-- `NOT Rd` (R134) -/
  | not (rd : Reg)
  /-- `SHL Rd, #count` (R141) -/
  | shl (rd : Reg) (count : Nat)
  /-- `SHR Rd, #count` (R142) -/
  | shr (rd : Reg) (count : Nat)
  /-- `CMP Rd, Rs` (R123) -/
  | cmp (rd rs : Reg)
  /-- `JMP address` (R151) -/
  | jmp (address : Word)
  /-- `JZ address` (R152) -/
  | jz (address : Word)
  /-- `JNZ address` (R153) -/
  | jnz (address : Word)
  /-- `JN address` (R154) -/
  | jn (address : Word)
  /-- `LDR Rd, Rs` (R113); Rs holds the address -/
  | ldr (rd rs : Reg)
  /-- `STR Rd, Rs` (R114); Rd holds the address, Rs the data -/
  | str (rd rs : Reg)
  /-- `PUSH Rs` (R171); Rs is encoded in the DST field (C13) -/
  | push (rs : Reg)
  /-- `POP Rd` (R172) -/
  | pop (rd : Reg)
  /-- `CALL address` (R161); `address` is the whole second word -/
  | call (address : Word)
  /-- `RET` (R162) -/
  | ret
  /-- `HALT` (R180) -/
  | halt
deriving DecidableEq, Repr

end Sys2Proof
end

