-- ==== Sys2Proof/WellFormed.lean ====
section
/-! DEFINITION. Which instructions have an encoding: the bounds of their immediates (spec/30_encoding.md R84, R92, R97). -/

namespace Sys2Proof

/-- A shift count is "a 5-bit immediate value (0-31)" (R84); every such count is legal (R92). -/
def shiftCountFits (count : Nat) : Bool := decide (count ≤ 31)

/-- A Format J address is "an 11-bit value (0-2047)" (R84); a larger one is a programming error that a tool
rejects (R97). -/
def jumpAddressFits (address : Word) : Bool := decide (address.toNat ≤ 2047)

/-- The instruction can be encoded. Register numbers and the second word of LOAD and CALL are unrestricted (R92). -/
def Instr.wellFormed : Instr → Bool
  | .nop => true
  | .load _ _ => true
  | .mov _ _ => true
  | .add _ _ => true
  | .sub _ _ => true
  | .and _ _ => true
  | .or _ _ => true
  | .xor _ _ => true
  | .not _ => true
  | .shl _ count => shiftCountFits count
  | .shr _ count => shiftCountFits count
  | .cmp _ _ => true
  | .jmp address => jumpAddressFits address
  | .jz address => jumpAddressFits address
  | .jnz address => jumpAddressFits address
  | .jn address => jumpAddressFits address
  | .ldr _ _ => true
  | .str _ _ => true
  | .push _ => true
  | .pop _ => true
  | .call _ => true
  | .ret => true
  | .halt => true

end Sys2Proof
end

