-- ==== Sys2Proof/Decode.lean ====
section
/-! DEFINITION. Byte order, the fields of an instruction word, the decoder and the encoder
(spec/20_memory.md R50, R51; spec/30_encoding.md R80 to R92, R98). -/

namespace Sys2Proof

/-! ### Byte order (R50, R51) -/

/-- The byte of a word that lies at the lower address: bits 7-0. -/
def lowByte (v : Word) : Byte := v.extractLsb' 0 8

/-- The byte of a word that lies at the higher address: bits 15-8. -/
def highByte (v : Word) : Byte := v.extractLsb' 8 8

/-- The word whose high byte is `high` and whose low byte is `low` (`high ‖ low` of R52). -/
def wordOfBytes (high low : Byte) : Word := high ++ low

/-- The bytes of a list of words in address order, each word low byte first (R51). -/
def bytesOfWords (ws : List Word) : List Byte := ws.flatMap fun w => [lowByte w, highByte w]

/-! ### Registers and their numbers (R21) -/

/-- The number of a register. -/
def Reg.number : Reg → Nat
  | .r0 => 0 | .r1 => 1 | .r2 => 2 | .r3 => 3 | .r4 => 4 | .r5 => 5 | .r6 => 6 | .r7 => 7

/-- The 3-bit field that names a register. -/
def Reg.field (r : Reg) : BitVec 3 := BitVec.ofNat 3 r.number

/-- The register a 3-bit field names. -/
def regOfField (b : BitVec 3) : Reg :=
  match b.toNat with
  | 0 => .r0 | 1 => .r1 | 2 => .r2 | 3 => .r3 | 4 => .r4 | 5 => .r5 | 6 => .r6 | _ => .r7

/-! ### Fields of the first word (R80, R81) -/

/-- OP, bits 15-11. -/
def opField (w : Word) : BitVec 5 := w.extractLsb' 11 5

/-- DST, bits 10-8, as a register. -/
def dstField (w : Word) : Reg := regOfField (w.extractLsb' 8 3)

/-- SRC, bits 7-5, as a register. -/
def srcField (w : Word) : Reg := regOfField (w.extractLsb' 5 3)

/-- IMM5, bits 4-0, unsigned: a shift count (R84). -/
def immField (w : Word) : Nat := (w.extractLsb' 0 5).toNat

/-- ADDRESS, bits 10-0, zero-extended: an absolute byte address (R84). -/
def addressField (w : Word) : Word := (w.extractLsb' 0 11).setWidth 16

/-! ### Decoding -/

/-- Why a first word is no instruction. Decoding stops; no instruction is guessed. -/
inductive WordError where
  /-- OP is 0x17 to 0x1F, assigned to no instruction (R91). -/
  | illegalOpcode
  /-- OP is defined and a field it does not use is not zero (R89). -/
  | reservedEncoding
deriving DecidableEq, Repr

/-- Why a list of bytes does not begin with an instruction. -/
inductive DecodeError where
  /-- Its first word is none. -/
  | badWord (e : WordError)
  /-- It ends inside an instruction. Memory never does. -/
  | truncated
deriving DecidableEq, Repr

/-- What the first word of an instruction says: the whole instruction, or a LOAD or CALL whose second word is
still to be read (R82, R85). -/
inductive FirstWord where
  | complete (i : Instr)
  | loadValue (rd : Reg)
  | callTarget
deriving DecidableEq, Repr

/-- The length of the instruction in words, known from the first one (R85). -/
def FirstWord.words : FirstWord → Nat
  | .complete _ => 1
  | .loadValue _ => 2
  | .callTarget => 2

/-- The instruction, once the second word is known (a one-word instruction has none and ignores it). -/
def FirstWord.withSecond : FirstWord → Word → Instr
  | .complete i, _ => i
  | .loadValue rd, w2 => .load rd w2
  | .callTarget, w2 => .call w2

/-- The bits of the fields an instruction does not use (R88). -/
def unusedDstSrcImm : Word := 0x07FF
/-- SRC and IMM5 unused: LOAD, NOT, PUSH, POP (R88). -/
def unusedSrcImm : Word := 0x00FF
/-- IMM5 unused: the two-register instructions (R88). -/
def unusedImm : Word := 0x001F
/-- SRC unused: SHL and SHR (R88). -/
def unusedSrc : Word := 0x00E0

/-- A first word whose OP is defined: under `strict` a non-zero unused field makes it a reserved encoding; otherwise
unused fields are ignored (R89). -/
def checkUnused (strict : Bool) (unused w : Word) (f : FirstWord) : Except WordError FirstWord :=
  if strict && (w &&& unused != 0) then .error .reservedEncoding else .ok f

/-- Decode a first word: OP first, then the unused fields (R87, R90, R91, R194). -/
def decodeFirst (strict : Bool) (w : Word) : Except WordError FirstWord :=
  match (opField w).toNat with
  | 0x00 => checkUnused strict unusedDstSrcImm w (.complete .nop)
  | 0x01 => checkUnused strict unusedSrcImm w (.loadValue (dstField w))
  | 0x02 => checkUnused strict unusedImm w (.complete (.mov (dstField w) (srcField w)))
  | 0x03 => checkUnused strict unusedImm w (.complete (.add (dstField w) (srcField w)))
  | 0x04 => checkUnused strict unusedImm w (.complete (.sub (dstField w) (srcField w)))
  | 0x05 => checkUnused strict unusedImm w (.complete (.and (dstField w) (srcField w)))
  | 0x06 => checkUnused strict unusedImm w (.complete (.or (dstField w) (srcField w)))
  | 0x07 => checkUnused strict unusedImm w (.complete (.xor (dstField w) (srcField w)))
  | 0x08 => checkUnused strict unusedSrcImm w (.complete (.not (dstField w)))
  | 0x09 => checkUnused strict unusedSrc w (.complete (.shl (dstField w) (immField w)))
  | 0x0A => checkUnused strict unusedSrc w (.complete (.shr (dstField w) (immField w)))
  | 0x0B => checkUnused strict unusedImm w (.complete (.cmp (dstField w) (srcField w)))
  | 0x0C => .ok (.complete (.jmp (addressField w)))
  | 0x0D => .ok (.complete (.jz (addressField w)))
  | 0x0E => .ok (.complete (.jnz (addressField w)))
  | 0x0F => .ok (.complete (.jn (addressField w)))
  | 0x10 => checkUnused strict unusedImm w (.complete (.ldr (dstField w) (srcField w)))
  | 0x11 => checkUnused strict unusedImm w (.complete (.str (dstField w) (srcField w)))
  | 0x12 => checkUnused strict unusedSrcImm w (.complete (.push (dstField w)))
  | 0x13 => checkUnused strict unusedSrcImm w (.complete (.pop (dstField w)))
  | 0x14 => checkUnused strict unusedDstSrcImm w .callTarget
  | 0x15 => checkUnused strict unusedDstSrcImm w (.complete .ret)
  | 0x16 => checkUnused strict unusedDstSrcImm w (.complete .halt)
  | _ => .error .illegalOpcode

/-- Decode the instruction at the head of a byte list and return it with the bytes after it. The second word is asked
for only after the first has passed its checks (R86, R194). -/
def decodeBytesWith (strict : Bool) : List Byte → Except DecodeError (Instr × List Byte)
  | b0 :: b1 :: rest =>
    match decodeFirst strict (wordOfBytes b1 b0) with
    | .error e => .error (.badWord e)
    | .ok (.complete i) => .ok (i, rest)
    | .ok f =>
      match rest with
      | b2 :: b3 :: rest' => .ok (f.withSecond (wordOfBytes b3 b2), rest')
      | _ => .error .truncated
  | _ => .error .truncated

/-- Decoding under the spec's value of STRICT_UNUSED_FIELDS. -/
def decodeBytes (bs : List Byte) : Except DecodeError (Instr × List Byte) :=
  decodeBytesWith Config.strictUnusedFields bs

/-- The four bytes of memory that hold the table word `w` of `nbits` bits, every higher bit zero. -/
def tableBytes (nbits w : Nat) : List Byte :=
  [0, 1, 2, 3].map fun k => BitVec.ofNat 8 ((w % 2 ^ nbits) / 256 ^ k)

/-- The instruction the decoder reads from a word of the opcode table, numbered as the table numbers its bits. -/
def decodeTableWord (nbits w : Nat) : Option Instr :=
  match decodeBytes (tableBytes nbits w) with
  | .ok (i, _) => some i
  | .error _ => none

/-! ### Encoding -/

/-- The mnemonic of an instruction (R90). -/
def Instr.mnemonic : Instr → String
  | .nop => "NOP"
  | .load _ _ => "LOAD"
  | .mov _ _ => "MOV"
  | .add _ _ => "ADD"
  | .sub _ _ => "SUB"
  | .and _ _ => "AND"
  | .or _ _ => "OR"
  | .xor _ _ => "XOR"
  | .not _ => "NOT"
  | .shl _ _ => "SHL"
  | .shr _ _ => "SHR"
  | .cmp _ _ => "CMP"
  | .jmp _ => "JMP"
  | .jz _ => "JZ"
  | .jnz _ => "JNZ"
  | .jn _ => "JN"
  | .ldr _ _ => "LDR"
  | .str _ _ => "STR"
  | .push _ => "PUSH"
  | .pop _ => "POP"
  | .call _ => "CALL"
  | .ret => "RET"
  | .halt => "HALT"

/-- The length of an instruction in words (R82, R85). -/
def Instr.words : Instr → Nat
  | .load _ _ => 2
  | .call _ => 2
  | .nop => 1
  | .mov _ _ => 1
  | .add _ _ => 1
  | .sub _ _ => 1
  | .and _ _ => 1
  | .or _ _ => 1
  | .xor _ _ => 1
  | .not _ => 1
  | .shl _ _ => 1
  | .shr _ _ => 1
  | .cmp _ _ => 1
  | .jmp _ => 1
  | .jz _ => 1
  | .jnz _ => 1
  | .jn _ => 1
  | .ldr _ _ => 1
  | .str _ _ => 1
  | .push _ => 1
  | .pop _ => 1
  | .ret => 1
  | .halt => 1

/-- A Format R word `[OP][DST][SRC][IMM5]` (R80). -/
def formatR (op : BitVec 5) (dst src : BitVec 3) (imm : BitVec 5) : Word := op ++ dst ++ src ++ imm

/-- A Format J word `[OP][ADDRESS]` (R81). -/
def formatJ (op : BitVec 5) (address : BitVec 11) : Word := op ++ address

/-- The words of an instruction (R87): the encoding of every well-formed one. -/
def encode : Instr → List Word
  | .nop => [formatR 0x00 0 0 0]
  | .load rd value => [formatR 0x01 rd.field 0 0, value]
  | .mov rd rs => [formatR 0x02 rd.field rs.field 0]
  | .add rd rs => [formatR 0x03 rd.field rs.field 0]
  | .sub rd rs => [formatR 0x04 rd.field rs.field 0]
  | .and rd rs => [formatR 0x05 rd.field rs.field 0]
  | .or rd rs => [formatR 0x06 rd.field rs.field 0]
  | .xor rd rs => [formatR 0x07 rd.field rs.field 0]
  | .not rd => [formatR 0x08 rd.field 0 0]
  | .shl rd count => [formatR 0x09 rd.field 0 (BitVec.ofNat 5 count)]
  | .shr rd count => [formatR 0x0A rd.field 0 (BitVec.ofNat 5 count)]
  | .cmp rd rs => [formatR 0x0B rd.field rs.field 0]
  | .jmp address => [formatJ 0x0C (address.setWidth 11)]
  | .jz address => [formatJ 0x0D (address.setWidth 11)]
  | .jnz address => [formatJ 0x0E (address.setWidth 11)]
  | .jn address => [formatJ 0x0F (address.setWidth 11)]
  | .ldr rd rs => [formatR 0x10 rd.field rs.field 0]
  | .str rd rs => [formatR 0x11 rd.field rs.field 0]
  | .push rs => [formatR 0x12 rs.field 0 0]
  | .pop rd => [formatR 0x13 rd.field 0 0]
  | .call address => [formatR 0x14 0 0 0, address]
  | .ret => [formatR 0x15 0 0 0]
  | .halt => [formatR 0x16 0 0 0]

/-- The bytes of an instruction in address order (R51). -/
def encodeBytes (i : Instr) : List Byte := bytesOfWords (encode i)

end Sys2Proof
end

