-- ==== Sys2Proof/Machine/State.lean ====
section
/-! DEFINITION. The machine's state, whole and as plain data (spec/10_state.md R20), the launch that starts a run
(R37, R221, R222), the state after reset, and the reasons a step can stop. -/

namespace Sys2Proof.Machine

/-- The eight general registers (R21). -/
structure Regs where
  r0 : Word
  r1 : Word
  r2 : Word
  r3 : Word
  r4 : Word
  r5 : Word
  r6 : Word
  r7 : Word
deriving DecidableEq, Repr

/-- The 16-bit FLAGS register (R28): Z is bit 0, N bit 1, O bit 2, `reserved` bits 15-3. No instruction reads or
writes the reserved bits (R32); the model holds them although a model may omit them (log 17). -/
structure Flags where
  z : Bool
  n : Bool
  o : Bool
  reserved : BitVec 13
deriving DecidableEq, Repr

/-- FLAGS as one 16-bit word, each bit where R28 puts it. -/
def Flags.word (f : Flags) : Word :=
  f.reserved ++ BitVec.ofBool f.o ++ BitVec.ofBool f.n ++ BitVec.ofBool f.z

/-- The FLAGS register that a 16-bit word spells (R28). -/
def Flags.ofWord (w : Word) : Flags :=
  { z := w.getLsbD 0, n := w.getLsbD 1, o := w.getLsbD 2, reserved := w.extractLsb' 3 13 }

/-- Memory (R35): the listed bytes by address, in one canonical form (`Memory.wf`); an unlisted address reads as
`Config.unlistedByte`. -/
abbrev Memory := List Host.Cell

/-- The canonical form: addresses strictly rising and inside the 65,536 bytes of R35, and no entry that an unlisted
address would read as. Equal memories in this form are equal lists. -/
abbrev Memory.wf (m : Memory) : Prop :=
  m.Pairwise (fun x y => x.1 < y.1) ∧ ∀ c ∈ m, c.1 < 65536 ∧ c.2 ≠ Config.unlistedByte

/-- The whole architectural state (R20): exactly these components, and nothing hidden but `halted` (R36). -/
structure State where
  /-- R0 to R7 -/
  regs : Regs
  /-- PC: the byte address of the next instruction (R24) -/
  pc : Word
  /-- SP: the byte address of the last word pushed (R33, R170) -/
  sp : Word
  /-- FLAGS (R28) -/
  flags : Flags
  /-- set by HALT, cleared only by reset (R33, R180) -/
  halted : Bool
  /-- the 65,536 bytes (R35) -/
  mem : Memory
deriving DecidableEq, Repr

/-- The model-level faults, "the only faults the model has" (R193). The CPU-16 raises no exception (R190): these say
that the spec gives a word no meaning. Both are safe: no claim about the hardware follows from a stop. -/
inductive Fault where
  /-- Raised by the fetch of a first word `w1` at `pc0` whose OP is 0x17 to 0x1F (R91; D6, log 11). Safe. -/
  | illegalOpcode (pc0 w1 : Word)
  /-- Raised by the fetch of a first word `w1` at `pc0` with a non-zero unused field, under STRICT_UNUSED_FIELDS
  (R89; D7, log 12). Safe. -/
  | reservedEncoding (pc0 w1 : Word)
deriving DecidableEq, Repr

/-- Why there is no step. -/
inductive Refusal where
  /-- Raised by exec's arm of an instruction that has no meaning yet (none is left). Safe. -/
  | notModelled (mnemonic : String)
  /-- Raised by the fetch when `halted` is 1: "no step exists (the machine is stopped)" (R180, R230; log 18). Safe. -/
  | processorHalted
  /-- Raised by a step that would access the byte at `a`, where the parameter MEM_MAP has no RAM: what is behind such an
  address the spec does not say (R60). At the spec's own MEM_MAP it is never raised. DESIGN CHOICE (log 14). Safe. -/
  | outsideMemMap (a : Word)
deriving DecidableEq, Repr

/-- What the environment supplies when a run starts (R7, R37, R222): the parameters PC_RESET, SP_RESET and MEM_INIT, and
the registers and flags, which may hold any value. A claim about the hardware quantifies over launches. -/
structure Launch where
  /-- PC_RESET (D1) -/
  pcReset : Word
  /-- SP_RESET (D2) -/
  spReset : Word
  /-- MEM_INIT (D4) -/
  memInit : Memory
  /-- R0 to R7, unspecified (D3) -/
  regs : Regs
  /-- FLAGS, unspecified (D3, D21) -/
  flags : Flags
deriving DecidableEq, Repr

/-- The state in which a run starts: not halted, everything else from the launch (R221; D5, log 6). -/
def State.launch (l : Launch) : State :=
  { regs := l.regs, pc := l.pcReset, sp := l.spReset, flags := l.flags, halted := false, mem := l.memInit }

/-- The launch with the values this model names: DESIGN CHOICE, unsafe (log 1 to 5). -/
def Launch.named : Launch :=
  { pcReset := Config.pcReset
    spReset := Config.spReset
    memInit := []
    regs :=
      { r0 := Config.registerReset, r1 := Config.registerReset, r2 := Config.registerReset, r3 := Config.registerReset
        r4 := Config.registerReset, r5 := Config.registerReset, r6 := Config.registerReset, r7 := Config.registerReset }
    flags := Flags.ofWord Config.flagsReset }

/-- The machine right after reset: `halted` is 0 as R37 states; every other value is one the model names. -/
def State.reset : State := State.launch Launch.named

end Sys2Proof.Machine
end

