-- ==== Sys2Proof/Machine/Ops.lean ====
section
/-! DEFINITION. The named operations over memory, registers and the stack (spec/00_scope.md R10, spec/20_memory.md
R52, R53, spec/46_stack.md R170). The CPU-16 has no exception entry and no return from one (spec/60_exceptions.md R190,
R195), so there is no such operation here; the two model-level faults are raised by Machine/Fetch.lean. -/

namespace Sys2Proof.Machine

/-! ### Memory -/

/-- The byte at an address: the listed one, else `Config.unlistedByte`. It changes no state (R52, R58). -/
def Memory.readByte : Memory → Word → Byte
  | [], _ => Config.unlistedByte
  | (k, v) :: rest, a => if k = a.toNat then v else Memory.readByte rest a

/-- Enter a byte at its place among rising addresses. -/
def Memory.insertCell : Memory → Nat → Byte → Memory
  | [], a, b => [(a, b)]
  | (k, v) :: rest, a, b => if a < k then (a, b) :: (k, v) :: rest else (k, v) :: Memory.insertCell rest a b

/-- Write the byte at an address and no other (R53), keeping the canonical form: a byte equal to what an unlisted
address reads as is not listed. -/
def Memory.writeByte (m : Memory) (a : Word) (b : Byte) : Memory :=
  let others : Memory := m.filter fun c => decide (c.1 ≠ a.toNat)
  if b = Config.unlistedByte then others else Memory.insertCell others a.toNat b

/-- `MemRead(a, 2)` (R52), at any address, odd ones included (R54, R55; D8, D10, log 8), the second byte's address
modulo 65536 (R57; D9, log 9). -/
def Memory.readWord (m : Memory) (a : Word) : Word := wordOfBytes (m.readByte (a + 1)) (m.readByte a)

/-- `MemWrite(a, 2, v)` (R53): low byte at `a`, high byte at `a + 1` modulo 65536. -/
def Memory.writeWord (m : Memory) (a v : Word) : Memory :=
  (m.writeByte a (lowByte v)).writeByte (a + 1) (highByte v)

/-- Place words one after another from an address on, as the environment places a program (R51, R222). -/
def Memory.storeWords (m : Memory) (a : Word) : List Word → Memory
  | [] => m
  | w :: ws => Memory.storeWords (m.writeWord a w) (a + 2) ws

/-! ### Registers -/

/-- The content of a register. -/
def Regs.get (x : Regs) : Reg → Word
  | .r0 => x.r0
  | .r1 => x.r1
  | .r2 => x.r2
  | .r3 => x.r3
  | .r4 => x.r4
  | .r5 => x.r5
  | .r6 => x.r6
  | .r7 => x.r7

/-- Write one register. None is hard-wired (R21). -/
def Regs.set (x : Regs) (r : Reg) (v : Word) : Regs :=
  match r with
  | .r0 => { x with r0 := v }
  | .r1 => { x with r1 := v }
  | .r2 => { x with r2 := v }
  | .r3 => { x with r3 := v }
  | .r4 => { x with r4 := v }
  | .r5 => { x with r5 := v }
  | .r6 => { x with r6 := v }
  | .r7 => { x with r7 := v }

/-! ### Reads and updates of the state (R10) -/

/-- `x[r]` -/
def State.reg (s : State) (r : Reg) : Word := s.regs.get r

/-- `x[r] <- v` -/
def State.setReg (s : State) (r : Reg) (v : Word) : State := { s with regs := s.regs.set r v }

/-- `pc <- v` -/
def State.setPc (s : State) (v : Word) : State := { s with pc := v }

/-- `sp <- v` -/
def State.setSp (s : State) (v : Word) : State := { s with sp := v }

/-- Write FLAGS. -/
def State.setFlags (s : State) (f : Flags) : State := { s with flags := f }

/-- `halted <- b` -/
def State.setHalted (s : State) (b : Bool) : State := { s with halted := b }

/-- `mem[a]` -/
def State.readByte (s : State) (a : Word) : Byte := s.mem.readByte a

/-- `MemRead(a, 2)` -/
def State.readWord (s : State) (a : Word) : Word := s.mem.readWord a

/-- `MemWrite(a, 2, v)` -/
def State.writeWord (s : State) (a v : Word) : State := { s with mem := s.mem.writeWord a v }

/-! ### The stack: full, descending, one word an entry, nothing checked (R170) -/

/-- Decrement SP by 2, then write the word at the new SP (R161, R171). -/
def State.pushWord (s : State) (v : Word) : State :=
  let lowered := s.setSp (s.sp - 2)
  lowered.writeWord lowered.sp v

/-- The word on top of the stack (R162, R172). -/
def State.topWord (s : State) : Word := s.readWord s.sp

/-- Increment SP by 2; the word read stays in memory (R170). -/
def State.dropWord (s : State) : State := s.setSp (s.sp + 2)

end Sys2Proof.Machine
end

