-- ==== Sys2Proof/Machine/Flags.lean ====
section
/-! DEFINITION. Every flag computation: Z and N of a result, O of a sum and of a difference, and the flags the conditional
jumps read (spec/10_state.md R28 to R32, spec/41_arithmetic.md R120, spec/42_logical.md R130). -/

namespace Sys2Proof.Machine

/-- Z of a result (R32). -/
def zeroFlag (r : Word) : Bool := r == 0

/-- N of a result: bit 15, also when the signed operation overflowed (R32). -/
def negativeFlag (r : Word) : Bool := r.msb

/-- O of the sum `r` of `a` and `b` (R120): operands of one sign and a result of the other. -/
def addOverflow (a b r : Word) : Bool := a.msb == b.msb && r.msb != a.msb

/-- O of the difference `r` of `a` and `b` (R120): operands of unlike sign and a result unlike the first. -/
def subOverflow (a b r : Word) : Bool := a.msb != b.msb && r.msb != a.msb

/-- O after AND, OR, XOR, NOT, SHL, SHR: 0, by the spec's decision (R130, R140; D11, C10, log 7, UNVERIFIED). -/
def logicalOverflow : Bool := false

/-- `setZN(r); O <- o`: each flag is written to 1 or 0, none is sticky (R29); the reserved bits stay (R32). -/
def Flags.result (f : Flags) (r : Word) (o : Bool) : Flags :=
  { f with z := zeroFlag r, n := negativeFlag r, o := o }

/-- Write the flags of a result and nothing else. -/
def State.setResultFlags (s : State) (r : Word) (o : Bool) : State := s.setFlags (s.flags.result r o)

/-- Write the flags of a result and the result itself to Rd. -/
def State.setResult (s : State) (rd : Reg) (r : Word) (o : Bool) : State := (s.setResultFlags r o).setReg rd r

end Sys2Proof.Machine
end

