-- ==== Sys2Proof/Machine/Operands.lean ====
section
/-! DEFINITION. The operand forms: immediate, register, register indirect (spec/00_scope.md R5, spec/30_encoding.md R84,
R87). -/

namespace Sys2Proof.Machine

/-- A register operand, Rd or Rs, read. -/
def registerOperand (s : State) (r : Reg) : Word := s.reg r

/-- The second word of LOAD or CALL: all 16 bits, no extension (R84). -/
def wordImmediate (value : Word) : Word := value

/-- The target of a Format J jump: an absolute byte address, neither relative nor scaled (R84, R150). The decoder has
zero-extended the 11-bit field. -/
def jumpTarget (address : Word) : Word := address

/-- The address of a register-indirect operand: all 16 bits of the register, no offset, no update (R113, R114). -/
def indirectAddress (s : State) (r : Reg) : Word := s.reg r

/-- A register-indirect source: the word in memory at the register's address (R113). -/
def indirectOperand (s : State) (r : Reg) : Word := s.readWord (indirectAddress s r)

/-- The address a push writes to: SP after its decrement (R161, R171). -/
def pushAddress (s : State) : Word := s.sp - 2

/-- The address of the one word of data an instruction reads or writes in the state of its execute phase, if any
(R52, R53, R56). -/
def dataAddress (s : State) : Instr → Option Word
  | .ldr _ rs => some (indirectAddress s rs)
  | .str rd _ => some (indirectAddress s rd)
  | .push _ => some (pushAddress s)
  | .call _ => some (pushAddress s)
  | .pop _ => some s.sp
  | .ret => some s.sp
  | .nop => none
  | .load _ _ => none
  | .mov _ _ => none
  | .add _ _ => none
  | .sub _ _ => none
  | .and _ _ => none
  | .or _ _ => none
  | .xor _ _ => none
  | .not _ => none
  | .shl _ _ => none
  | .shr _ _ => none
  | .cmp _ _ => none
  | .jmp _ => none
  | .jz _ => none
  | .jnz _ => none
  | .jn _ => none
  | .halt => none

end Sys2Proof.Machine
end

