-- ==== Sys2Proof/Machine/Arithmetic.lean ====
section
/-! DEFINITION. The meanings of ADD, SUB, CMP (spec/41_arithmetic.md). Sums and differences are modulo 65536 (R120). -/

namespace Sys2Proof.Machine

/-- ADD (R121): both operands are read, then Z, N, O and Rd written. -/
def execAdd (rd rs : Reg) (s : State) : Host.Outcome State Fault Refusal :=
  let a := registerOperand s rd
  let b := registerOperand s rs
  .next (s.setResult rd (a + b) (addOverflow a b (a + b)))

/-- SUB (R122): as ADD, with the difference Rd - Rs. -/
def execSub (rd rs : Reg) (s : State) : Host.Outcome State Fault Refusal :=
  let a := registerOperand s rd
  let b := registerOperand s rs
  .next (s.setResult rd (a - b) (subOverflow a b (a - b)))

/-- CMP (R123): the flags of SUB; the difference is discarded. -/
def execCmp (rd rs : Reg) (s : State) : Host.Outcome State Fault Refusal :=
  let a := registerOperand s rd
  let b := registerOperand s rs
  .next (s.setResultFlags (a - b) (subOverflow a b (a - b)))

end Sys2Proof.Machine
end

