-- ==== Sys2Proof/Machine/ControlFlow.lean ====
section
/-! DEFINITION. The meanings of JMP, JZ, JNZ, JN (spec/44_control_flow.md). No flag is written, nothing checks the target,
there is no delay slot (R150). -/

namespace Sys2Proof.Machine

/-- Jump where the condition holds; else pc stays at the next sequential instruction. -/
def jumpIf (condition : Bool) (address : Word) (s : State) : State :=
  if condition then s.setPc (jumpTarget address) else s

/-- JMP (R151). -/
def execJmp (address : Word) (s : State) : Host.Outcome State Fault Refusal := .next (s.setPc (jumpTarget address))

/-- JZ (R152): jump if Z = 1. -/
def execJz (address : Word) (s : State) : Host.Outcome State Fault Refusal := .next (jumpIf s.flags.z address s)

/-- JNZ (R153): jump if Z = 0. -/
def execJnz (address : Word) (s : State) : Host.Outcome State Fault Refusal := .next (jumpIf (!s.flags.z) address s)

/-- JN (R154): jump if N = 1. -/
def execJn (address : Word) (s : State) : Host.Outcome State Fault Refusal := .next (jumpIf s.flags.n address s)

end Sys2Proof.Machine
end

