-- ==== Sys2Proof/Machine/DataMovement.lean ====
section
/-! DEFINITION. The meanings of NOP, LOAD, MOV, LDR, STR (spec/40_data_movement.md). In every meaning `s.pc` is already the
address of the next sequential instruction (spec/00_scope.md R11). -/

namespace Sys2Proof.Machine

/-- NOP (R110): nothing. -/
def execNop (s : State) : Host.Outcome State Fault Refusal := .next s

/-- LOAD (R111): `x[Rd] <- w2`; no flag. -/
def execLoad (rd : Reg) (value : Word) (s : State) : Host.Outcome State Fault Refusal :=
  .next (s.setReg rd (wordImmediate value))

/-- MOV (R112): `x[Rd] <- x[Rs]`; no flag. -/
def execMov (rd rs : Reg) (s : State) : Host.Outcome State Fault Refusal :=
  .next (s.setReg rd (registerOperand s rs))

/-- LDR (R113): `x[Rd] <- MemRead(x[Rs], 2)`, the address read before Rd is written; no flag. -/
def execLdr (rd rs : Reg) (s : State) : Host.Outcome State Fault Refusal :=
  .next (s.setReg rd (indirectOperand s rs))

/-- STR (R114): `MemWrite(x[Rd], 2, x[Rs])`; no register, no flag. -/
def execStr (rd rs : Reg) (s : State) : Host.Outcome State Fault Refusal :=
  .next (s.writeWord (indirectAddress s rd) (registerOperand s rs))

end Sys2Proof.Machine
end

