-- ==== Sys2Proof/Machine/Logical.lean ====
section
/-! DEFINITION. The meanings of AND, OR, XOR, NOT (spec/42_logical.md). Z and N are those of the result; O by R130. -/

namespace Sys2Proof.Machine

/-- AND (R131). -/
def execAnd (rd rs : Reg) (s : State) : Host.Outcome State Fault Refusal :=
  .next (s.setResult rd (registerOperand s rd &&& registerOperand s rs) logicalOverflow)

/-- OR (R132). -/
def execOr (rd rs : Reg) (s : State) : Host.Outcome State Fault Refusal :=
  .next (s.setResult rd (registerOperand s rd ||| registerOperand s rs) logicalOverflow)

/-- XOR (R133). -/
def execXor (rd rs : Reg) (s : State) : Host.Outcome State Fault Refusal :=
  .next (s.setResult rd (registerOperand s rd ^^^ registerOperand s rs) logicalOverflow)

/-- NOT (R134): one's complement. -/
def execNot (rd : Reg) (s : State) : Host.Outcome State Fault Refusal :=
  .next (s.setResult rd (~~~ registerOperand s rd) logicalOverflow)

end Sys2Proof.Machine
end

