-- ==== Sys2Proof/Machine/Shift.lean ====
section
/-! DEFINITION. The meanings of SHL and SHR (spec/43_shift.md). The count is used whole: 16 and more give 0
(R140; D20, log 10, UNVERIFIED). The flags are written for every count, 0 included (R140). -/

namespace Sys2Proof.Machine

/-- `(n >= 16) ? 0 : (a · 2^n) mod 65536` (R141). -/
def shiftLeft (a : Word) (n : Nat) : Word := if 16 ≤ n then 0 else a <<< n

/-- `(n >= 16) ? 0 : floor(a / 2^n)`, zeros shifted in (R142). -/
def shiftRight (a : Word) (n : Nat) : Word := if 16 ≤ n then 0 else a >>> n

/-- SHL (R141). -/
def execShl (rd : Reg) (count : Nat) (s : State) : Host.Outcome State Fault Refusal :=
  .next (s.setResult rd (shiftLeft (registerOperand s rd) count) logicalOverflow)

/-- SHR (R142). -/
def execShr (rd : Reg) (count : Nat) (s : State) : Host.Outcome State Fault Refusal :=
  .next (s.setResult rd (shiftRight (registerOperand s rd) count) logicalOverflow)

end Sys2Proof.Machine
end

