-- ==== Sys2Proof/Machine/Stack.lean ====
section
/-! DEFINITION. The meanings of PUSH and POP (spec/46_stack.md). -/

namespace Sys2Proof.Machine

/-- PUSH (R171): `sp <- sp - 2; MemWrite(sp, 2, x[Rs])`. -/
def execPush (rs : Reg) (s : State) : Host.Outcome State Fault Refusal :=
  .next (s.pushWord (registerOperand s rs))

/-- POP (R172): `x[Rd] <- MemRead(sp, 2); sp <- sp + 2`. -/
def execPop (rd : Reg) (s : State) : Host.Outcome State Fault Refusal :=
  .next ((s.setReg rd s.topWord).dropWord)

end Sys2Proof.Machine
end

