-- ==== Sys2Proof/Machine/Subroutine.lean ====
section
/-! DEFINITION. The meanings of CALL and RET (spec/45_subroutine.md). -/

namespace Sys2Proof.Machine

/-- CALL (R161): push the return address, which is `pc` of the execute phase, `pc0 + 4` (R160; C1, D12, log 13), and go
to the target, which was fetched before the push (R66). -/
def execCall (address : Word) (s : State) : Host.Outcome State Fault Refusal :=
  .next ((s.pushWord s.pc).setPc (wordImmediate address))

/-- RET (R162): `pc <- MemRead(sp, 2); sp <- sp + 2`. -/
def execRet (s : State) : Host.Outcome State Fault Refusal :=
  .next ((s.setPc s.topWord).dropWord)

end Sys2Proof.Machine
end

