-- ==== Sys2Proof/Machine/System.lean ====
section
/-! DEFINITION. The meaning of HALT (spec/47_system.md). -/

namespace Sys2Proof.Machine

/-- HALT (R180): `halted <- 1`; pc has been advanced by the fetch. -/
def execHalt (s : State) : Host.Outcome State Fault Refusal := .next (s.setHalted true)

end Sys2Proof.Machine
end

