-- ==== Sys2Proof/Machine/Dispatch.lean ====
section
/-! DEFINITION. The execute phase: one arm per instruction (spec/30_encoding.md R86, R90). -/

namespace Sys2Proof.Machine

def exec (i : Instr) (s : State) : Host.Outcome State Fault Refusal :=
  match i with
  | .nop => Sys2Proof.Machine.execNop s
  | .load rd value => Sys2Proof.Machine.execLoad rd value s
  | .mov rd rs => Sys2Proof.Machine.execMov rd rs s
  | .add rd rs => Sys2Proof.Machine.execAdd rd rs s
  | .sub rd rs => Sys2Proof.Machine.execSub rd rs s
  | .and rd rs => Sys2Proof.Machine.execAnd rd rs s
  | .or rd rs => Sys2Proof.Machine.execOr rd rs s
  | .xor rd rs => Sys2Proof.Machine.execXor rd rs s
  | .not rd => Sys2Proof.Machine.execNot rd s
  | .shl rd count => Sys2Proof.Machine.execShl rd count s
  | .shr rd count => Sys2Proof.Machine.execShr rd count s
  | .cmp rd rs => Sys2Proof.Machine.execCmp rd rs s
  | .jmp address => Sys2Proof.Machine.execJmp address s
  | .jz address => Sys2Proof.Machine.execJz address s
  | .jnz address => Sys2Proof.Machine.execJnz address s
  | .jn address => Sys2Proof.Machine.execJn address s
  | .ldr rd rs => Sys2Proof.Machine.execLdr rd rs s
  | .str rd rs => Sys2Proof.Machine.execStr rd rs s
  | .push rs => Sys2Proof.Machine.execPush rs s
  | .pop rd => Sys2Proof.Machine.execPop rd s
  | .call address => Sys2Proof.Machine.execCall address s
  | .ret => Sys2Proof.Machine.execRet s
  | .halt => Sys2Proof.Machine.execHalt s

end Sys2Proof.Machine
end

