-- ==== Sys2Proof/Machine/Fetch.lean ====
section
/-! DEFINITION. The fetch and decode phases of a step (spec/30_encoding.md R86, spec/70_reset_and_hazards.md R230), and the
placing of an instruction where the next fetch reads it. -/

namespace Sys2Proof.Machine

/-- The model-level fault that a first word `w1` at `pc0` raises (R193). -/
def faultOf (pc0 w1 : Word) : WordError → Fault
  | .illegalOpcode => .illegalOpcode pc0 w1
  | .reservedEncoding => .reservedEncoding pc0 w1

/-- The rest of the fetch, once word 1 has been decoded and pc stands after it: a two-word instruction reads its second
word at pc and moves pc past it (R86; C1, D12, log 13). -/
def fetchSecond (f : FirstWord) (s : State) : Instr × State :=
  match f with
  | .complete i => (i, s)
  | .loadValue rd => (.load rd (s.readWord s.pc), s.setPc (s.pc + 2))
  | .callTarget => (.call (s.readWord s.pc), s.setPc (s.pc + 2))

/-- The access to the word at `a`, if there is one, goes on as `go` where MEM_MAP has RAM at both of its bytes, and is
refused at the first byte where it has none (R7, R60; log 14). -/
def ifRam {α : Type} (p : Parameters) (a : Option Word) (go : Host.Outcome α Fault Refusal) : Host.Outcome α Fault Refusal :=
  match a with
  | none => go
  | some a =>
    if !p.memMap a then .refused (.outsideMemMap a)
    else if !p.memMap (a + 1) then .refused (.outsideMemMap (a + 1))
    else go

/-- The address of the second word, for an instruction at `pc0` that has one (R51, R85). -/
def secondWordAddress (f : FirstWord) (pc0 : Word) : Option Word :=
  match f with
  | .complete _ => none
  | .loadValue _ => some (pc0 + 2)
  | .callTarget => some (pc0 + 2)

/-- Fetch and decode under the parameters `p`: the instruction at pc, and the state of its execute phase, which differs
from `s` in pc alone. A halted machine fetches nothing (R180). The checks are made on word 1 before word 2 is read and before
anything changes (R194). -/
def fetchUnder (p : Parameters) (s : State) : Host.Outcome (Instr × State) Fault Refusal :=
  if s.halted then .refused .processorHalted
  else
    ifRam p (some s.pc)
      (match decodeFirst p.strictUnusedFields (s.readWord s.pc) with
      | .error e => .fault (faultOf s.pc (s.readWord s.pc) e)
      | .ok f => ifRam p (secondWordAddress f s.pc) (.next (fetchSecond f (s.setPc (s.pc + 2)))))

/-- The fetch under the spec's own values of the parameters. -/
def fetch (s : State) : Host.Outcome (Instr × State) Fault Refusal := fetchUnder Config.parameters s

/-- The first two words of the table word `w` of `nbits` bits, every higher bit zero. -/
def tableWords (nbits w : Nat) : List Word :=
  [0, 1].map fun k => BitVec.ofNat 16 ((w % 2 ^ nbits) / 65536 ^ k)

/-- Store the table word at pc, little-endian, and let the machine run: a halted one would fetch nothing. -/
def State.placeTableWord (s : State) (nbits w : Nat) : State :=
  { s with halted := false, mem := s.mem.storeWords s.pc (tableWords nbits w) }

end Sys2Proof.Machine
end

