-- ==== Sys2Proof/Machine/Step.lean ====
section
/-! DEFINITION. One step of the machine: fetch and decode, then execute (spec/70_reset_and_hazards.md R230). -/

namespace Sys2Proof.Machine

/-- One step under the parameters `p` of R7 (R230): a next state, a model-level fault, or no step because the machine is
halted or because an access falls where MEM_MAP has no RAM (log 14), which is found before anything is written. -/
def stepUnder (p : Parameters) (s : State) : Host.Outcome State Fault Refusal :=
  match fetchUnder p s with
  | .next (i, s') => ifRam p (dataAddress s' i) (exec i s')
  | .fault r => .fault r
  | .refused r => .refused r

/-- One step of the machine: `stepUnder` at the spec's own values of the parameters, where all memory is RAM
(`step_eq` says it without the parameters). Deterministic; there is no other transition. -/
def step (s : State) : Host.Outcome State Fault Refusal := stepUnder Config.parameters s

/-- The state with an instruction of the opcode table stored where the next step fetches it (log 24). -/
def State.withFetchWord (s : State) (nbits w : Nat) : State := s.placeTableWord nbits w

end Sys2Proof.Machine
end

