-- ==== Sys2Proof/Machine/Assembler.lean ====
section
/-! DEFINITION. The assembler's syntax as far as the manual shows it (spec/30_encoding.md R93 to R97; in scope by
spec/00_scope.md R3): source text to the words of a program at a load address. No step of the machine reads this file.
What the manual does not show is a DESIGN CHOICE of log 23. -/

namespace Sys2Proof.Assembler

/-- Why a source text is no program. -/
inductive AsmError where
  /-- A line is neither a label nor a mnemonic with operands. -/
  | badLine
  /-- The mnemonic does not take these operands, or there is no such mnemonic (R93). -/
  | badStatement
  /-- A number does not fit its field (R97). -/
  | operandOutOfRange
  /-- An operand names no label (R94). -/
  | undefinedLabel
  /-- Two labels have one name. -/
  | duplicateLabel
deriving DecidableEq, Repr

/-- An operand as written (R93, R95). -/
inductive Operand where
  /-- `R0` to `R7` -/
  | register (r : Reg)
  /-- a bare number -/
  | number (n : Nat)
  /-- a number with `#` -/
  | hashed (n : Nat)
  /-- a label's name -/
  | label (name : String)
deriving DecidableEq, Repr

/-- A source line: a label on a line of its own, or an instruction (R93, R94). -/
inductive Statement where
  | label (name : String)
  | instruction (mnemonic : String) (operands : List Operand)
deriving DecidableEq, Repr

/-! ### Lines -/

/-- Blank characters inside a line. -/
def isBlank (c : Char) : Bool := c == ' ' || c == '\t' || c == '\r'

/-- A text without the blanks at its ends. -/
def trim (cs : List Char) : List Char := ((cs.dropWhile isBlank).reverse.dropWhile isBlank).reverse

/-- The pieces of a text between separators. -/
def splitAt (sep : Char) : List Char → List (List Char)
  | [] => [[]]
  | c :: cs =>
    match splitAt sep cs with
    | [] => [[c]]
    | piece :: pieces => if c == sep then [] :: piece :: pieces else (c :: piece) :: pieces

/-- A line up to its comment, which begins with a semicolon (R94). -/
def withoutComment (cs : List Char) : List Char := cs.takeWhile (· != ';')

/-! ### Operands -/

/-- The value of a digit in base 10 or 16. -/
def digitValue (base : Nat) (c : Char) : Option Nat :=
  let v :=
    if '0' ≤ c && c ≤ '9' then c.toNat - '0'.toNat
    else if 'A' ≤ c && c ≤ 'F' then c.toNat - 'A'.toNat + 10
    else if 'a' ≤ c && c ≤ 'f' then c.toNat - 'a'.toNat + 10
    else base
  if v < base then some v else none

/-- The number that digits spell after `acc`. -/
def digitsValue (base : Nat) : Nat → List Char → Option Nat
  | acc, [] => some acc
  | acc, c :: cs =>
    match digitValue base c with
    | some v => digitsValue base (acc * base + v) cs
    | none => none

/-- A number: decimal, or hexadecimal with the prefix `0x` (R95). -/
def parseNumber : List Char → Option Nat
  | [] => none
  | '0' :: 'x' :: d :: ds => digitsValue 16 0 (d :: ds)
  | d :: ds => digitsValue 10 0 (d :: ds)

/-- A register's name (R93). -/
def parseRegister : List Char → Option Reg
  | ['R', '0'] => some .r0
  | ['R', '1'] => some .r1
  | ['R', '2'] => some .r2
  | ['R', '3'] => some .r3
  | ['R', '4'] => some .r4
  | ['R', '5'] => some .r5
  | ['R', '6'] => some .r6
  | ['R', '7'] => some .r7
  | _ => none

/-- A character of a label. -/
def isNameChar (c : Char) : Bool := c.isAlpha || c.isDigit || c == '_'

/-- A label's name: it begins with no digit and is none of `R0` to `R7`. Case matters (R94). DESIGN CHOICE (log 23): any other name
is a label's, `SP`, `PC` and `FLAGS` among them, of which the manual does not say whether they are accepted as names (N13). -/
def parseName (cs : List Char) : Option String :=
  match cs with
  | [] => none
  | c :: _ => if !c.isDigit && cs.all isNameChar && (parseRegister cs).isNone then some (String.ofList cs) else none

/-- One operand: a register, a number with or without `#`, or a label's name (R93 to R95). DESIGN CHOICE (log 23): nothing else is
an operand, no character constant, no expression, no negative and no b-suffix number, of which the manual does not say whether
they are accepted (R95, N13). -/
def parseOperand (text : List Char) : Option Operand :=
  match trim text with
  | [] => none
  | '#' :: ds => (parseNumber ds).map .hashed
  | c :: cs =>
    match parseRegister (c :: cs) with
    | some r => some (.register r)
    | none =>
      if c.isDigit then (parseNumber (c :: cs)).map .number else (parseName (c :: cs)).map .label

/-- The operands after a mnemonic, separated by commas (R93). -/
def parseOperands (text : List Char) : Option (List Operand) :=
  if trim text = [] then some [] else (splitAt ',' text).mapM parseOperand

/-- One line: nothing, a label that ends with a colon, or an instruction (R93, R94). -/
def parseLine (line : List Char) : Except AsmError (List Statement) :=
  match trim (withoutComment line) with
  | [] => .ok []
  | c :: cs =>
    let text := c :: cs
    if text.getLast? = some ':' then
      match parseName text.dropLast with
      | some name => .ok [.label name]
      | none => .error .badLine
    else
      let mnemonic := text.takeWhile (!isBlank ·)
      match parseOperands (text.drop mnemonic.length) with
      | some operands => .ok [.instruction (String.ofList mnemonic) operands]
      | none => .error .badLine

/-- The statements of a list of lines. -/
def parseLines : List (List Char) → Except AsmError (List Statement)
  | [] => .ok []
  | line :: lines =>
    match parseLine line, parseLines lines with
    | .ok here, .ok rest => .ok (here ++ rest)
    | .error e, _ => .error e
    | _, .error e => .error e

/-! ### Instructions -/

/-- A number as a 16-bit word, if it fits; a larger one is rejected, a DESIGN CHOICE for LOAD and CALL (log 23). -/
def fitWord (n : Nat) : Except AsmError Word :=
  if n < 65536 then .ok (BitVec.ofNat 16 n) else .error .operandOutOfRange

/-- The instruction, if its immediates fit their fields: a larger one is rejected, not truncated. For a jump's address that is the
spec's reading (R97); for a shift's count it is a DESIGN CHOICE (log 23). -/
def fitFields (i : Instr) : Except AsmError Instr := if i.wellFormed then .ok i else .error .operandOutOfRange

/-- An instruction with a register and an immediate (R95: with or without `#`). -/
def buildImmediate (mnemonic : String) (rd : Reg) (n : Nat) : Except AsmError Instr :=
  match mnemonic with
  | "LOAD" =>
    match fitWord n with
    | .ok value => .ok (.load rd value)
    | .error e => .error e
  | "SHL" => fitFields (.shl rd n)
  | "SHR" => fitFields (.shr rd n)
  | _ => .error .badStatement

/-- An instruction with an address. -/
def buildAddress (mnemonic : String) (n : Nat) : Except AsmError Instr :=
  match fitWord n with
  | .error e => .error e
  | .ok address =>
    match mnemonic with
    | "JMP" => fitFields (.jmp address)
    | "JZ" => fitFields (.jz address)
    | "JNZ" => fitFields (.jnz address)
    | "JN" => fitFields (.jn address)
    | "CALL" => .ok (.call address)
    | _ => .error .badStatement

/-- An instruction with two registers, destination first (R93; STR's address register first, R87). -/
def buildRegisters (mnemonic : String) (rd rs : Reg) : Except AsmError Instr :=
  match mnemonic with
  | "MOV" => .ok (.mov rd rs)
  | "ADD" => .ok (.add rd rs)
  | "SUB" => .ok (.sub rd rs)
  | "AND" => .ok (.and rd rs)
  | "OR" => .ok (.or rd rs)
  | "XOR" => .ok (.xor rd rs)
  | "CMP" => .ok (.cmp rd rs)
  | "LDR" => .ok (.ldr rd rs)
  | "STR" => .ok (.str rd rs)
  | _ => .error .badStatement

/-- An instruction with one register. -/
def buildRegister (mnemonic : String) (r : Reg) : Except AsmError Instr :=
  match mnemonic with
  | "NOT" => .ok (.not r)
  | "PUSH" => .ok (.push r)
  | "POP" => .ok (.pop r)
  | _ => .error .badStatement

/-- An instruction without operands. -/
def buildPlain (mnemonic : String) : Except AsmError Instr :=
  match mnemonic with
  | "NOP" => .ok .nop
  | "RET" => .ok .ret
  | "HALT" => .ok .halt
  | _ => .error .badStatement

/-- The instruction a statement writes, its labels looked up in `labels` (R87, R93, R94). Mnemonics are in capitals. -/
def build (labels : List (String × Nat)) (mnemonic : String) : List Operand → Except AsmError Instr
  | [] => buildPlain mnemonic
  | [.register r] => buildRegister mnemonic r
  | [.register rd, .register rs] => buildRegisters mnemonic rd rs
  | [.register rd, .number n] => buildImmediate mnemonic rd n
  | [.register rd, .hashed n] => buildImmediate mnemonic rd n
  | [.number n] => buildAddress mnemonic n
  | [.label name] =>
    match labels.lookup name with
    | some n => buildAddress mnemonic n
    | none => .error .undefinedLabel
  | _ => .error .badStatement

/-! ### Programs -/

/-- The length of a statement in words: LOAD and CALL have two (R85). -/
def Statement.words : Statement → Nat
  | .label _ => 0
  | .instruction mnemonic _ => if mnemonic = "LOAD" ∨ mnemonic = "CALL" then 2 else 1

/-- The labels with their values: each the byte address of the first word of the next instruction (R94). The spec does not say
what a label is worth past 0xFFFF, in a program assembled across the top of memory. DESIGN CHOICE (log 28): the value is not
reduced modulo 65536, so `fitWord` rejects a use of such a label, although `loadProgram` wraps the same program. Nor does the spec say what a label
names that has no instruction after it. DESIGN CHOICE (log 23): it is accepted, and names the address behind the last word. -/
def labelValues : Nat → List Statement → List (String × Nat)
  | _, [] => []
  | here, .label name :: rest => (name, here) :: labelValues here rest
  | here, .instruction m ops :: rest => labelValues (here + 2 * (Statement.instruction m ops).words) rest

/-- The instructions of a program in order. -/
def buildAll (labels : List (String × Nat)) : List Statement → Except AsmError (List Instr)
  | [] => .ok []
  | .label _ :: rest => buildAll labels rest
  | .instruction mnemonic operands :: rest =>
    match build labels mnemonic operands, buildAll labels rest with
    | .ok i, .ok is => .ok (i :: is)
    | .error e, _ => .error e
    | _, .error e => .error e

/-- The instructions of a source text loaded at `origin`. The manual has no directive for a load address: it is part of
the launch (R96, R222). -/
def assemble (origin : Nat) (source : String) : Except AsmError (List Instr) :=
  match parseLines (splitAt '\n' source.toList) with
  | .error e => .error e
  | .ok statements =>
    let labels := labelValues origin statements
    if (labels.map Prod.fst).Nodup then buildAll labels statements else .error .duplicateLabel

/-- The words of a program in address order (R87, R98). -/
def programWords (program : List Instr) : List Word := program.flatMap encode

/-- Memory with a program placed from `origin` on, as the environment places it before a run (R222). -/
def loadProgram (m : Machine.Memory) (origin : Word) (program : List Instr) : Machine.Memory :=
  m.storeWords origin (programWords program)

end Sys2Proof.Assembler
end

