-- ==== Sys2Proof/Machine/Timing.lean ====
section
/-! DEFINITION. The cycle counts the manual prints (spec/70_reset_and_hazards.md R241). A table that no step reads: time is
not part of the machine and no program can observe it (R197; D23, log 19). -/

namespace Sys2Proof.Machine

/-- A printed cycle count: "1", or "1+" with no upper bound, one cycle and the wait states memory decides (R241). -/
inductive Cycles where
  | exactly (n : Nat)
  | atLeast (n : Nat)
deriving DecidableEq, Repr

/-- The CYCLES line of each instruction (R241). -/
def instrCycles : Instr → Cycles
  | .nop => .exactly 1
  | .load _ _ => .exactly 1
  | .mov _ _ => .exactly 1
  | .add _ _ => .exactly 1
  | .sub _ _ => .exactly 1
  | .and _ _ => .exactly 1
  | .or _ _ => .exactly 1
  | .xor _ _ => .exactly 1
  | .not _ => .exactly 1
  | .shl _ _ => .exactly 1
  | .shr _ _ => .exactly 1
  | .cmp _ _ => .exactly 1
  | .jmp _ => .exactly 1
  | .jz _ => .exactly 1
  | .jnz _ => .exactly 1
  | .jn _ => .exactly 1
  | .halt => .exactly 1
  | .ldr _ _ => .atLeast 1
  | .str _ _ => .atLeast 1
  | .push _ => .atLeast 1
  | .pop _ => .atLeast 1
  | .call _ => .atLeast 1
  | .ret => .atLeast 1

end Sys2Proof.Machine
end

