-- ==== Sys2Proof/Safety.lean ====
section
/-! DEFINITION. Runs, how they end, and the words claims use (spec/60_exceptions.md R193, spec/70_reset_and_hazards.md
R231). -/

namespace Sys2Proof.Machine

/-- `t` follows from `s` by steps of `machine` (R231). Under other values of R7's parameters, the machine is `stepUnder p`. -/
inductive ReachesBy (machine : State → Host.Outcome State Fault Refusal) : State → State → Prop where
  | refl (s : State) : ReachesBy machine s s
  | tail {s t u : State} : ReachesBy machine s t → machine t = .next u → ReachesBy machine s u

/-- The run of `machine` from `s` ends, completed, in `t`: a halted state (R231). -/
def CompletedBy (machine : State → Host.Outcome State Fault Refusal) (s t : State) : Prop :=
  ReachesBy machine s t ∧ t.halted = true

/-- The run of `machine` from `s` ends, not completed, with a model-level fault (R193, R231). -/
def FaultedBy (machine : State → Host.Outcome State Fault Refusal) (s : State) (f : Fault) : Prop :=
  ∃ t, ReachesBy machine s t ∧ machine t = .fault f

/-- `t` follows from `s` by steps, at the spec's own values of the parameters. -/
def Reaches (s t : State) : Prop := ReachesBy step s t

/-- The run from `s` ends, completed, in `t`, at the spec's own values of the parameters. -/
def Completed (s t : State) : Prop := CompletedBy step s t

/-- The run from `s` ends with a model-level fault, at the spec's own values of the parameters. -/
def Faulted (s : State) (f : Fault) : Prop := FaultedBy step s f

/-- No fault is recorded: a premise of any claim about a program (R193). -/
def FaultFree (s : State) : Prop := ∀ f, ¬ Faulted s f

/-- The memory is in its canonical form. -/
def State.Canonical (s : State) : Prop := s.mem.wf

/-! ### Frames -/

/-- No general register changes. -/
def SameRegs (s t : State) : Prop := ∀ r, t.reg r = s.reg r

/-- No general register changes but `rd`. -/
def SameRegsBut (rd : Reg) (s t : State) : Prop := ∀ r, r ≠ rd → t.reg r = s.reg r

/-- No byte of memory changes. -/
def SameMemory (s t : State) : Prop := ∀ b : Word, t.readByte b = s.readByte b

/-- No byte of memory changes but the two of the word at `a`. -/
def SameMemoryBut (a : Word) (s t : State) : Prop := ∀ b : Word, b ≠ a → b ≠ a + 1 → t.readByte b = s.readByte b

/-- Nothing changes but `rd`: what LOAD, MOV and LDR leave alone. -/
def OnlyRegister (rd : Reg) (s t : State) : Prop :=
  SameRegsBut rd s t ∧ t.pc = s.pc ∧ t.sp = s.sp ∧ t.flags = s.flags ∧ t.halted = s.halted ∧ SameMemory s t

/-- Nothing changes but `rd` and the flags Z, N, O: what an arithmetic, logical or shift instruction leaves alone. -/
def OnlyResult (rd : Reg) (s t : State) : Prop :=
  SameRegsBut rd s t ∧ t.pc = s.pc ∧ t.sp = s.sp ∧ t.flags.reserved = s.flags.reserved ∧ t.halted = s.halted ∧
    SameMemory s t

/-- Nothing changes but pc: what a jump leaves alone. -/
def OnlyPc (s t : State) : Prop :=
  SameRegs s t ∧ t.sp = s.sp ∧ t.flags = s.flags ∧ t.halted = s.halted ∧ SameMemory s t

/-- Z, N and O are those of the 16-bit result `r` (R28, R32), O being 1 exactly when `o` holds. -/
def FlagsOf (r : Word) (o : Prop) (t : State) : Prop :=
  (t.flags.z = true ↔ r = 0) ∧ (t.flags.n = true ↔ r.getLsbD 15 = true) ∧ (t.flags.o = true ↔ o)

/-- The word `v` stands at `a`: its low byte at `a`, its high byte at `a + 1` (R50). -/
def HoldsWord (t : State) (a v : Word) : Prop :=
  (t.readByte a).toNat = v.toNat % 256 ∧ (t.readByte (a + 1)).toNat = v.toNat / 256

/-! ### What each instruction touches -/

/-- The instructions that write the flags (R30). -/
def writesFlags : Instr → Bool
  | .add _ _ => true
  | .sub _ _ => true
  | .and _ _ => true
  | .or _ _ => true
  | .xor _ _ => true
  | .not _ => true
  | .shl _ _ => true
  | .shr _ _ => true
  | .cmp _ _ => true
  | .nop => false
  | .load _ _ => false
  | .mov _ _ => false
  | .jmp _ => false
  | .jz _ => false
  | .jnz _ => false
  | .jn _ => false
  | .ldr _ _ => false
  | .str _ _ => false
  | .push _ => false
  | .pop _ => false
  | .call _ => false
  | .ret => false
  | .halt => false

/-- The general register an instruction writes, if any (R23). -/
def destination : Instr → Option Reg
  | .load rd _ => some rd
  | .mov rd _ => some rd
  | .add rd _ => some rd
  | .sub rd _ => some rd
  | .and rd _ => some rd
  | .or rd _ => some rd
  | .xor rd _ => some rd
  | .not rd => some rd
  | .shl rd _ => some rd
  | .shr rd _ => some rd
  | .ldr rd _ => some rd
  | .pop rd => some rd
  | .cmp _ _ => none
  | .nop => none
  | .jmp _ => none
  | .jz _ => none
  | .jnz _ => none
  | .jn _ => none
  | .str _ _ => none
  | .push _ => none
  | .call _ => none
  | .ret => none
  | .halt => none

/-- The number in an instruction that has an immediate: LOAD's value, a shift's count, the address of a jump or CALL (R84). -/
def immediate : Instr → Option Nat
  | .load _ value => some value.toNat
  | .shl _ count => some count
  | .shr _ count => some count
  | .jmp address => some address.toNat
  | .jz address => some address.toNat
  | .jnz address => some address.toNat
  | .jn address => some address.toNat
  | .call address => some address.toNat
  | .nop => none
  | .mov _ _ => none
  | .add _ _ => none
  | .sub _ _ => none
  | .and _ _ => none
  | .or _ _ => none
  | .xor _ _ => none
  | .not _ => none
  | .cmp _ _ => none
  | .ldr _ _ => none
  | .str _ _ => none
  | .push _ => none
  | .pop _ => none
  | .ret => none
  | .halt => none

/-- The address of the word an instruction stores to in the state of its execute phase, if it stores (R53, R66). -/
def storeAddress (s : State) : Instr → Option Word
  | .str rd _ => some (indirectAddress s rd)
  | .push _ => some (pushAddress s)
  | .call _ => some (pushAddress s)
  | .nop => none
  | .load _ _ => none
  | .mov _ _ => none
  | .add _ _ => none
  | .sub _ _ => none
  | .and _ _ => none
  | .or _ _ => none
  | .xor _ _ => none
  | .not _ => none
  | .shl _ _ => none
  | .shr _ _ => none
  | .cmp _ _ => none
  | .jmp _ => none
  | .jz _ => none
  | .jnz _ => none
  | .jn _ => none
  | .ldr _ _ => none
  | .pop _ => none
  | .ret => none
  | .halt => none

/-- SP after an instruction that finds it at `sp` (R33). -/
def spAfter (sp : Word) : Instr → Word
  | .push _ => sp - 2
  | .call _ => sp - 2
  | .pop _ => sp + 2
  | .ret => sp + 2
  | .nop => sp
  | .load _ _ => sp
  | .mov _ _ => sp
  | .add _ _ => sp
  | .sub _ _ => sp
  | .and _ _ => sp
  | .or _ _ => sp
  | .xor _ _ => sp
  | .not _ => sp
  | .shl _ _ => sp
  | .shr _ _ => sp
  | .cmp _ _ => sp
  | .jmp _ => sp
  | .jz _ => sp
  | .jnz _ => sp
  | .jn _ => sp
  | .ldr _ _ => sp
  | .str _ _ => sp
  | .halt => sp

/-- PC after the step that executes an instruction at `s.pc` (R25). -/
def pcAfter (s : State) : Instr → Word
  | .load _ _ => s.pc + 4
  | .jmp address => address
  | .jz address => if s.flags.z then address else s.pc + 2
  | .jnz address => if s.flags.z then s.pc + 2 else address
  | .jn address => if s.flags.n then address else s.pc + 2
  | .call address => address
  | .ret => s.readWord s.sp
  | .nop => s.pc + 2
  | .mov _ _ => s.pc + 2
  | .add _ _ => s.pc + 2
  | .sub _ _ => s.pc + 2
  | .and _ _ => s.pc + 2
  | .or _ _ => s.pc + 2
  | .xor _ _ => s.pc + 2
  | .not _ => s.pc + 2
  | .shl _ _ => s.pc + 2
  | .shr _ _ => s.pc + 2
  | .cmp _ _ => s.pc + 2
  | .ldr _ _ => s.pc + 2
  | .str _ _ => s.pc + 2
  | .push _ => s.pc + 2
  | .pop _ => s.pc + 2
  | .halt => s.pc + 2

/-- Two states that agree on everything but O and the reserved bits of FLAGS. -/
def AgreeButOverflow (s s' : State) : Prop :=
  s'.regs = s.regs ∧ s'.pc = s.pc ∧ s'.sp = s.sp ∧ s'.halted = s.halted ∧ s'.mem = s.mem ∧
    s'.flags.z = s.flags.z ∧ s'.flags.n = s.flags.n

/-! ### Accesses of a step -/

/-- The two bytes of the word at an address, if there is one (R52). -/
def wordBytes : Option Word → List Word
  | none => []
  | some a => [a, a + 1]

/-- The addresses of the bytes a step of a running machine accesses, in the order of R66: word 1; word 2, for an instruction
that has one; the word of data, for an instruction that reads or writes one. A word 1 that is no instruction's ends the step. -/
def accessedBytes (strict : Bool) (s : State) : List Word :=
  wordBytes (some s.pc) ++
    match decodeFirst strict (s.readWord s.pc) with
    | .error _ => []
    | .ok f =>
      let fetched := fetchSecond f (s.setPc (s.pc + 2))
      wordBytes (secondWordAddress f s.pc) ++ wordBytes (dataAddress fetched.2 fetched.1)

/-! ### Instructions in memory -/

/-- Four bytes of memory from pc on, the longest an instruction can be. -/
def State.bytesAtPc (s : State) : List Byte :=
  [s.readByte s.pc, s.readByte (s.pc + 1), s.readByte (s.pc + 2), s.readByte (s.pc + 3)]

/-- The one-word instruction `i` has the encoding `w`: a running machine with `w` at pc executes `i`, with pc advanced
by 2 (R11, R86). -/
def EncodedAs (i : Instr) (w : Nat) : Prop :=
  ∀ s : State, s.halted = false → s.readWord s.pc = BitVec.ofNat 16 w →
    step s = exec i (s.setPc (s.pc + 2))

/-- The two-word instruction `i` has the first word `w`: a running machine with `w` at pc executes `i` of the word at
`pc + 2`, read before anything is written, with pc advanced by 4 (R11, R66, R86). -/
def EncodedInTwoAs (i : Word → Instr) (w : Nat) : Prop :=
  ∀ s : State, s.halted = false → s.readWord s.pc = BitVec.ofNat 16 w →
    step s = exec (i (s.readWord (s.pc + 2))) (s.setPc (s.pc + 4))

end Sys2Proof.Machine

namespace Sys2Proof.Assembler

/-- The number that the operands of a statement write, a label standing for its value (R94, R95). -/
def writtenNumber (labels : List (String × Nat)) : List Operand → Option Nat
  | [.number n] => some n
  | [.label name] => labels.lookup name
  | [.register _, .number n] => some n
  | [.register _, .hashed n] => some n
  | _ => none

end Sys2Proof.Assembler
end

