-- ==== Sys2Proof/Certificates/Slice0/Obligations.lean ====
section
/-! DEFINITION. The statements for the provers. `s` in a statement about `exec` is the state of the execute phase, whose
`pc` is already the address of the next sequential instruction (spec/00_scope.md R11). A clause that rests on a decision or
an inference the spec marks as its own makes its statement 'derived', and the docstring names it. Where an instruction's rule prints its
cycles (`instrCycles`, log 19), the statement says them too. -/

open Sys2Proof Sys2Proof.Machine

/-! ### The start of a run -/

/-- The launch states are exactly the states that are not halted: the parameters, the registers and the flags may have any
value (R37, R221, the spec's decisions D1 to D5; log 6). -/
def Obligations.LaunchStatesAreTheRunningStates : Prop :=
  ∀ s : State, s.halted = false ↔ ∃ l : Launch, s = State.launch l

/-- What `State.reset` holds. `halted = 0` is the spec's (R37); every other value is THE MODEL'S CHOICE, log 1 to 5. -/
def Obligations.ResetHoldsTheNamedValues : Prop :=
  State.reset.halted = false ∧ (∀ r, State.reset.reg r = 0) ∧ State.reset.flags.word = 0 ∧
    State.reset.pc = 0 ∧ State.reset.sp = 0 ∧ ∀ a, State.reset.readByte a = 0

/-- The memory of `State.reset` is in canonical form (the model's form of memory, log 5). -/
def Obligations.ResetMemoryIsCanonical : Prop := State.reset.Canonical

/-- FLAGS as a 16-bit word has Z in bit 0, N in bit 1, O in bit 2 and the reserved bits in 15-3, and the word spells the
register back (R28). -/
def Obligations.FlagsWordLayout : Prop :=
  ∀ f : Flags, f.word.getLsbD 0 = f.z ∧ f.word.getLsbD 1 = f.n ∧ f.word.getLsbD 2 = f.o ∧
    (f.word.toNat / 8 = f.reserved.toNat) ∧ Flags.ofWord f.word = f

/-! ### Memory -/

/-- R52: a word read is the byte at the next address in the high half and the byte at the address in the low half. -/
def Obligations.WordReadIsLittleEndian : Prop :=
  ∀ (s : State) (a : Word), (s.readWord a).toNat = (s.readByte a).toNat + 256 * (s.readByte (a + 1)).toNat

/-- R50: a word written has its low byte at the lower and its high byte at the higher address; no other byte changes; and
the word is read back. -/
def Obligations.WordWriteIsLittleEndian : Prop :=
  ∀ (s : State) (a v : Word), HoldsWord (s.writeWord a v) a v ∧ SameMemoryBut a s (s.writeWord a v) ∧
    (s.writeWord a v).readWord a = v

/-- Two word writes at addresses one apart: the later write's byte wins in the shared byte (R53's overlap case, which the
spec marks as its inference). -/
def Obligations.OverlappingWritesLaterByteWins : Prop :=
  ∀ (s : State) (a v w : Word),
    let t := (s.writeWord a v).writeWord (a + 1) w
    (t.readByte a).toNat = v.toNat % 256 ∧ (t.readByte (a + 1)).toNat = w.toNat % 256 ∧
      (t.readByte (a + 2)).toNat = w.toNat / 256

/-- Canonical memories that read alike at every address are equal (the model's form of memory, log 5). -/
def Obligations.CanonicalMemoriesEqualWhenReadsAgree : Prop :=
  ∀ m m' : Memory, m.wf → m'.wf → (∀ a, m.readByte a = m'.readByte a) → m = m'

/-! ### Data movement -/

/-- R110: NOP, encoded 0x0000, changes nothing (pc has been advanced by the fetch). -/
def Obligations.NopChangesNothing : Prop := 
  (∀ s, exec .nop s = .next s) ∧ EncodedAs .nop 0x0000 ∧ instrCycles .nop = .exactly 1

/-- LOAD writes its second word, whole, to Rd, and nothing else (R111). That the second word is read at `pc + 2`, before
anything is written, and that pc then moves past it, is the spec's inference and decision (R86; C1, D12; log 13). -/
def Obligations.LoadWritesTheSecondWord : Prop :=
  (∀ rd value s, ∃ t, exec (.load rd value) s = .next t ∧ t.reg rd = value ∧ OnlyRegister rd s t) ∧
    (∀ rd, EncodedInTwoAs (fun value => .load rd value) (0x0800 + rd.number * 256)) ∧
    ∀ rd value, instrCycles (.load rd value) = .exactly 1

/-- R112: MOV copies Rs to Rd, and nothing else. -/
def Obligations.MovCopiesTheSource : Prop :=
  (∀ rd rs s, ∃ t, exec (.mov rd rs) s = .next t ∧ t.reg rd = s.reg rs ∧ OnlyRegister rd s t) ∧
    ∀ rd rs, EncodedAs (.mov rd rs) (0x1000 + rd.number * 256 + rs.number * 32)

/-- R113: LDR writes to Rd the word at the address that Rs held, little-endian, and nothing else; Rd may be Rs. Odd and
wrapping addresses are the spec's decisions D8 and D9 (log 8, 9). -/
def Obligations.LdrReadsTheWordAtTheSource : Prop :=
  (∀ rd rs s, ∃ t, exec (.ldr rd rs) s = .next t ∧
      (t.reg rd).toNat = (s.readByte (s.reg rs)).toNat + 256 * (s.readByte (s.reg rs + 1)).toNat ∧
      OnlyRegister rd s t) ∧
    (∀ rd rs, EncodedAs (.ldr rd rs) (0x8000 + rd.number * 256 + rs.number * 32)) ∧
    ∀ rd rs, instrCycles (.ldr rd rs) = .atLeast 1

/-- R114: STR stores Rs at the address that Rd holds: two bytes, no register, no flag, nothing else. Odd and wrapping
addresses are the spec's decisions D8 and D9 (log 8, 9). -/
def Obligations.StrStoresTheSource : Prop :=
  (∀ rd rs s, ∃ t, exec (.str rd rs) s = .next t ∧ HoldsWord t (indirectAddress s rd) (s.reg rs) ∧
      SameMemoryBut (indirectAddress s rd) s t ∧ SameRegs s t ∧ t.pc = s.pc ∧ t.sp = s.sp ∧ t.flags = s.flags ∧
      t.halted = s.halted) ∧
    (∀ rd rs, EncodedAs (.str rd rs) (0x8800 + rd.number * 256 + rs.number * 32)) ∧
    ∀ rd rs, instrCycles (.str rd rs) = .atLeast 1

/-! ### Arithmetic -/

/-- R121: ADD writes the sum modulo 65536 to Rd and Z, N, O, and nothing else. -/
def Obligations.AddWritesSumAndFlags : Prop :=
  (∀ rd rs s, ∃ t, exec (.add rd rs) s = .next t ∧
      t.reg rd = BitVec.ofNat 16 ((s.reg rd).toNat + (s.reg rs).toNat) ∧
      FlagsOf (t.reg rd) ((s.reg rd).getLsbD 15 = (s.reg rs).getLsbD 15 ∧
        (t.reg rd).getLsbD 15 ≠ (s.reg rd).getLsbD 15) t ∧
      OnlyResult rd s t) ∧
    ∀ rd rs, EncodedAs (.add rd rs) (0x1800 + rd.number * 256 + rs.number * 32)

/-- R122: SUB writes the difference Rd - Rs modulo 65536 to Rd and Z, N, O, and nothing else. -/
def Obligations.SubWritesDifferenceAndFlags : Prop :=
  (∀ rd rs s, ∃ t, exec (.sub rd rs) s = .next t ∧
      t.reg rd = BitVec.ofInt 16 ((s.reg rd).toNat - (s.reg rs).toNat) ∧
      FlagsOf (t.reg rd) ((s.reg rd).getLsbD 15 ≠ (s.reg rs).getLsbD 15 ∧
        (t.reg rd).getLsbD 15 ≠ (s.reg rd).getLsbD 15) t ∧
      OnlyResult rd s t) ∧
    ∀ rd rs, EncodedAs (.sub rd rs) (0x2000 + rd.number * 256 + rs.number * 32)

/-- R123: CMP writes exactly the flags that SUB would write, those of Rd - Rs, and nothing else: no register changes. -/
def Obligations.CmpWritesOnlyTheFlagsOfSub : Prop :=
  (∀ rd rs s, ∃ t u, exec (.cmp rd rs) s = .next t ∧ exec (.sub rd rs) s = .next u ∧ t.flags = u.flags ∧
      FlagsOf (BitVec.ofInt 16 ((s.reg rd).toNat - (s.reg rs).toNat))
        ((s.reg rd).getLsbD 15 ≠ (s.reg rs).getLsbD 15 ∧
          (BitVec.ofInt 16 ((s.reg rd).toNat - (s.reg rs).toNat)).getLsbD 15 ≠ (s.reg rd).getLsbD 15) t ∧
      SameRegs s t ∧ t.pc = s.pc ∧ t.sp = s.sp ∧ t.flags.reserved = s.flags.reserved ∧ t.halted = s.halted ∧
      SameMemory s t) ∧
    ∀ rd rs, EncodedAs (.cmp rd rs) (0x5800 + rd.number * 256 + rs.number * 32)

/-- O after ADD, SUB and CMP is 1 exactly when the true signed sum or difference lies outside -32768..32767 (R120, where the
spec marks it as its inference, and two's complement, its decision D24, log 20). -/
def Obligations.OverflowIsSignedRange : Prop :=
  ∀ rd rs s,
    (∃ t, exec (.add rd rs) s = .next t ∧ (t.flags.o = true ↔
      (s.reg rd).signed + (s.reg rs).signed < -32768 ∨ 32767 < (s.reg rd).signed + (s.reg rs).signed)) ∧
    (∃ t, exec (.sub rd rs) s = .next t ∧ (t.flags.o = true ↔
      (s.reg rd).signed - (s.reg rs).signed < -32768 ∨ 32767 < (s.reg rd).signed - (s.reg rs).signed)) ∧
    (∃ t, exec (.cmp rd rs) s = .next t ∧ (t.flags.o = true ↔
      (s.reg rd).signed - (s.reg rs).signed < -32768 ∨ 32767 < (s.reg rd).signed - (s.reg rs).signed))

/-- After CMP: Z = 1 exactly when the operands are equal, and the first is the lesser as a signed number exactly when
N differs from O (R124, where the spec marks the second as its inference). -/
def Obligations.CmpDecidesEqualityAndSignedOrder : Prop :=
  ∀ rd rs s, ∃ t, exec (.cmp rd rs) s = .next t ∧ (t.flags.z = true ↔ s.reg rd = s.reg rs) ∧
    ((s.reg rd).signed < (s.reg rs).signed ↔ t.flags.n ≠ t.flags.o)

/-! ### Logical and shift instructions -/

/-- AND, OR, XOR write the bitwise result to Rd, Z and N of it, and nothing else (R131 to R133). That O is 0 is the spec's
decision D11 (R130; log 7). -/
def Obligations.LogicalWritesBitwiseResult : Prop :=
  (∀ rd rs s, ∃ t, exec (.and rd rs) s = .next t ∧
      (∀ k < 16, (t.reg rd).getLsbD k = ((s.reg rd).getLsbD k && (s.reg rs).getLsbD k)) ∧
      FlagsOf (t.reg rd) False t ∧ OnlyResult rd s t) ∧
    (∀ rd rs s, ∃ t, exec (.or rd rs) s = .next t ∧
      (∀ k < 16, (t.reg rd).getLsbD k = ((s.reg rd).getLsbD k || (s.reg rs).getLsbD k)) ∧
      FlagsOf (t.reg rd) False t ∧ OnlyResult rd s t) ∧
    (∀ rd rs s, ∃ t, exec (.xor rd rs) s = .next t ∧
      (∀ k < 16, (t.reg rd).getLsbD k = ((s.reg rd).getLsbD k ^^ (s.reg rs).getLsbD k)) ∧
      FlagsOf (t.reg rd) False t ∧ OnlyResult rd s t) ∧
    (∀ rd rs, EncodedAs (.and rd rs) (0x2800 + rd.number * 256 + rs.number * 32)) ∧
    (∀ rd rs, EncodedAs (.or rd rs) (0x3000 + rd.number * 256 + rs.number * 32)) ∧
    ∀ rd rs, EncodedAs (.xor rd rs) (0x3800 + rd.number * 256 + rs.number * 32)

/-- NOT writes 0xFFFF - Rd to Rd, Z and N of it, and nothing else (R134). That O is 0 is the spec's decision D11 (R130;
log 7). -/
def Obligations.NotWritesTheComplement : Prop :=
  (∀ rd s, ∃ t, exec (.not rd) s = .next t ∧ (t.reg rd).toNat = 65535 - (s.reg rd).toNat ∧
      FlagsOf (t.reg rd) False t ∧ OnlyResult rd s t) ∧
    ∀ rd, EncodedAs (.not rd) (0x4000 + rd.number * 256)

/-- SHL writes Rd · 2^count modulo 65536, 0 for a count of 16 or more, Z and N of it, and nothing else (R141). The counts
from 16 on and O = 0 are the spec's decisions D20 and D11 (R140; log 10, 7). -/
def Obligations.ShlMultipliesByPowerOfTwo : Prop :=
  (∀ rd count s, ∃ t, exec (.shl rd count) s = .next t ∧
      (t.reg rd).toNat = (if 16 ≤ count then 0 else (s.reg rd).toNat * 2 ^ count % 65536) ∧
      FlagsOf (t.reg rd) False t ∧ OnlyResult rd s t) ∧
    ∀ rd count, count ≤ 31 → EncodedAs (.shl rd count) (0x4800 + rd.number * 256 + count)

/-- SHR writes the floor of Rd / 2^count, 0 for a count of 16 or more, Z and N of it, and nothing else; N is 1 only for the
count 0 (R142). The counts from 16 on and O = 0 are the spec's decisions D20 and D11 (R140; log 10, 7). -/
def Obligations.ShrDividesByPowerOfTwo : Prop :=
  (∀ rd count s, ∃ t, exec (.shr rd count) s = .next t ∧
      (t.reg rd).toNat = (if 16 ≤ count then 0 else (s.reg rd).toNat / 2 ^ count) ∧
      FlagsOf (t.reg rd) False t ∧ OnlyResult rd s t ∧ (t.flags.n = true → count = 0)) ∧
    ∀ rd count, count ≤ 31 → EncodedAs (.shr rd count) (0x5000 + rd.number * 256 + count)

/-! ### Control flow -/

/-- R151: JMP sets pc to its address, and nothing else. -/
def Obligations.JmpGoesToTheAddress : Prop :=
  (∀ address s, ∃ t, exec (.jmp address) s = .next t ∧ t.pc = address ∧ OnlyPc s t) ∧
    ∀ address : Word, address.toNat ≤ 2047 → EncodedAs (.jmp address) (0x6000 + address.toNat)

/-- R152: JZ goes to its address if Z = 1, else on to the next instruction; nothing else changes. -/
def Obligations.JzGoesWhereZeroIsSet : Prop :=
  (∀ address s, ∃ t, exec (.jz address) s = .next t ∧ (s.flags.z = true → t.pc = address) ∧
      (s.flags.z = false → t.pc = s.pc) ∧ OnlyPc s t) ∧
    ∀ address : Word, address.toNat ≤ 2047 → EncodedAs (.jz address) (0x6800 + address.toNat)

/-- R153: JNZ goes to its address if Z = 0, else on to the next instruction; nothing else changes. -/
def Obligations.JnzGoesWhereZeroIsClear : Prop :=
  (∀ address s, ∃ t, exec (.jnz address) s = .next t ∧ (s.flags.z = false → t.pc = address) ∧
      (s.flags.z = true → t.pc = s.pc) ∧ OnlyPc s t) ∧
    ∀ address : Word, address.toNat ≤ 2047 → EncodedAs (.jnz address) (0x7000 + address.toNat)

/-- R154: JN goes to its address if N = 1, else on to the next instruction; nothing else changes. -/
def Obligations.JnGoesWhereNegativeIsSet : Prop :=
  (∀ address s, ∃ t, exec (.jn address) s = .next t ∧ (s.flags.n = true → t.pc = address) ∧
      (s.flags.n = false → t.pc = s.pc) ∧ OnlyPc s t) ∧
    ∀ address : Word, address.toNat ≤ 2047 → EncodedAs (.jn address) (0x7800 + address.toNat)

/-! ### Subroutines, stack, system -/

/-- CALL lowers sp by 2, writes the return address at the new sp, and goes to its second word (R161). The return address is
pc of the execute phase, pc0 + 4, and the second word is read before the push: the spec's inference and decision (R160, R66;
C1, D12; log 13). -/
def Obligations.CallPushesReturnAddressAndGoes : Prop :=
  (∀ address s, ∃ t, exec (.call address) s = .next t ∧ t.sp = s.sp - 2 ∧ HoldsWord t (pushAddress s) s.pc ∧
      SameMemoryBut (pushAddress s) s t ∧ t.pc = address ∧ SameRegs s t ∧ t.flags = s.flags ∧ t.halted = s.halted) ∧
    EncodedInTwoAs .call 0xA000 ∧ ∀ address, instrCycles (.call address) = .atLeast 1

/-- R162: RET takes pc from the top of the stack and raises sp by 2; nothing else changes. -/
def Obligations.RetGoesToTheTopOfStack : Prop :=
  (∀ s, ∃ t, exec .ret s = .next t ∧
      t.pc.toNat = (s.readByte s.sp).toNat + 256 * (s.readByte (s.sp + 1)).toNat ∧ t.sp = s.sp + 2 ∧
      SameRegs s t ∧ t.flags = s.flags ∧ t.halted = s.halted ∧ SameMemory s t) ∧
    EncodedAs .ret 0xA800 ∧ instrCycles .ret = .atLeast 1

/-- R171: PUSH lowers sp by 2 and writes the register at the new sp; nothing else changes. -/
def Obligations.PushStoresBelowTheStack : Prop :=
  (∀ rs s, ∃ t, exec (.push rs) s = .next t ∧ t.sp = s.sp - 2 ∧ HoldsWord t (pushAddress s) (s.reg rs) ∧
      SameMemoryBut (pushAddress s) s t ∧ SameRegs s t ∧ t.pc = s.pc ∧ t.flags = s.flags ∧ t.halted = s.halted) ∧
    (∀ rs, EncodedAs (.push rs) (0x9000 + rs.number * 256)) ∧ ∀ rs, instrCycles (.push rs) = .atLeast 1

/-- R172: POP writes the top of the stack to Rd and raises sp by 2; nothing else changes. -/
def Obligations.PopTakesTheTopOfStack : Prop :=
  (∀ rd s, ∃ t, exec (.pop rd) s = .next t ∧
      (t.reg rd).toNat = (s.readByte s.sp).toNat + 256 * (s.readByte (s.sp + 1)).toNat ∧ t.sp = s.sp + 2 ∧
      SameRegsBut rd s t ∧ t.pc = s.pc ∧ t.flags = s.flags ∧ t.halted = s.halted ∧ SameMemory s t) ∧
    (∀ rd, EncodedAs (.pop rd) (0x9800 + rd.number * 256)) ∧ ∀ rd, instrCycles (.pop rd) = .atLeast 1

/-- HALT sets `halted` and nothing else; pc has been advanced by the fetch, which the spec marks as its inference (R180). -/
def Obligations.HaltSetsHaltedOnly : Prop :=
  (∀ s, ∃ t, exec .halt s = .next t ∧ t.halted = true ∧ SameRegs s t ∧ t.pc = s.pc ∧ t.sp = s.sp ∧
      t.flags = s.flags ∧ SameMemory s t) ∧
    EncodedAs .halt 0xB000 ∧ instrCycles .halt = .exactly 1

/-! ### Sequences of instructions -/

/-- Two registers pushed and popped in reverse order leave every register, sp and the flags as they were (R170 to R172). The
address arithmetic is modulo 65536, the spec's decision D9 (log 9). -/
def Obligations.PushPopInReverseRestores : Prop :=
  ∀ (r q : Reg) (s : State), ∃ s1 s2 s3 t, exec (.push r) s = .next s1 ∧ exec (.push q) s1 = .next s2 ∧
    exec (.pop q) s2 = .next s3 ∧ exec (.pop r) s3 = .next t ∧ SameRegs s t ∧ t.sp = s.sp ∧ t.flags = s.flags

/-- RET after CALL returns to CALL's return address with sp restored, from every state that has sp and the top of the stack
as CALL left them (R160 to R162; the return address is the spec's inference, C1, log 13). -/
def Obligations.RetReturnsBehindTheCall : Prop :=
  ∀ (address : Word) (s : State), ∃ t, exec (.call address) s = .next t ∧
    ∀ v : State, v.sp = t.sp → v.readByte t.sp = t.readByte t.sp → v.readByte (t.sp + 1) = t.readByte (t.sp + 1) →
      ∃ u, exec .ret v = .next u ∧ u.pc = s.pc ∧ u.sp = s.sp

/-- PUSH Rs, then RET, is a jump to the address in Rs that leaves registers, sp and flags as they were, at the cost of one
word below the stack pointer (R163, which the spec marks as its inference). -/
def Obligations.PushRetJumpsThroughRegister : Prop :=
  ∀ (rs : Reg) (s : State) (p : Word), ∃ t u, exec (.push rs) s = .next t ∧ exec .ret (t.setPc p) = .next u ∧
    u.pc = s.reg rs ∧ u.sp = s.sp ∧ SameRegs s u ∧ u.flags = s.flags ∧ SameMemoryBut (pushAddress s) s u

/-- A store into the next instruction is seen by the very next fetch: after STR at `s.pc` with its target at `s.pc + 2`, the
next step executes the word stored (R64, the spec's decision D15; log 15). -/
def Obligations.StoreIsSeenByTheNextFetch : Prop :=
  ∀ (rd rs : Reg) (s s' : State) (i : Instr), fetch s = .next (.str rd rs, s') → s.reg rd = s.pc + 2 →
    decodeFirst true (s.reg rs) = .ok (.complete i) →
    ∃ t, step s = .next t ∧ step t = exec i (t.setPc (t.pc + 2))

/-! ### Encoding -/

/-- A row of the opcode table of R90. -/
structure OpcodeRow where
  mnemonic : String
  words : Nat
  pattern : Word
  mask : Word

/-- The opcode table as R90 prints it. -/
def opcodeRows : List OpcodeRow :=
  [⟨"NOP", 1, 0x0000, 0xFFFF⟩, ⟨"LOAD", 2, 0x0800, 0xF8FF⟩, ⟨"MOV", 1, 0x1000, 0xF81F⟩,
   ⟨"ADD", 1, 0x1800, 0xF81F⟩, ⟨"SUB", 1, 0x2000, 0xF81F⟩, ⟨"AND", 1, 0x2800, 0xF81F⟩,
   ⟨"OR", 1, 0x3000, 0xF81F⟩, ⟨"XOR", 1, 0x3800, 0xF81F⟩, ⟨"NOT", 1, 0x4000, 0xF8FF⟩,
   ⟨"SHL", 1, 0x4800, 0xF8E0⟩, ⟨"SHR", 1, 0x5000, 0xF8E0⟩, ⟨"CMP", 1, 0x5800, 0xF81F⟩,
   ⟨"JMP", 1, 0x6000, 0xF800⟩, ⟨"JZ", 1, 0x6800, 0xF800⟩, ⟨"JNZ", 1, 0x7000, 0xF800⟩,
   ⟨"JN", 1, 0x7800, 0xF800⟩, ⟨"LDR", 1, 0x8000, 0xF81F⟩, ⟨"STR", 1, 0x8800, 0xF81F⟩,
   ⟨"PUSH", 1, 0x9000, 0xF8FF⟩, ⟨"POP", 1, 0x9800, 0xF8FF⟩, ⟨"CALL", 2, 0xA000, 0xFFFF⟩,
   ⟨"RET", 1, 0xA800, 0xFFFF⟩, ⟨"HALT", 1, 0xB000, 0xFFFF⟩]

/-- The decoder takes `w` for the first word of an instruction of this name and length. -/
def DecodesTo (strict : Bool) (w : Word) (mnemonic : String) (words : Nat) : Prop :=
  ∃ f, decodeFirst strict w = .ok f ∧ f.words = words ∧ (f.withSecond 0).mnemonic = mnemonic

/-- R90: under the strict reading a word is an instruction of a row exactly when it matches the row under its mask, under the
lenient reading exactly when it matches under 0xF800; and there is no instruction beyond the 23 rows. -/
def Obligations.DecoderFollowsTheOpcodeTable : Prop :=
  (∀ row ∈ opcodeRows, ∀ w : Word, (DecodesTo true w row.mnemonic row.words ↔ w &&& row.mask = row.pattern) ∧
      (DecodesTo false w row.mnemonic row.words ↔ w &&& 0xF800 = row.pattern)) ∧
    ∀ (strict : Bool) (w : Word) (f : FirstWord), decodeFirst strict w = .ok f →
      ∃ row ∈ opcodeRows, (f.withSecond 0).mnemonic = row.mnemonic ∧ f.words = row.words

/-- Decoding the bytes of a well-formed instruction gives it back, with the bytes after it, under either value of
STRICT_UNUSED_FIELDS: every operand at every value the encoding admits (R87, R92, R98). -/
def Obligations.DecodeOfEncode : Prop :=
  ∀ (strict : Bool) (i : Instr) (rest : List Byte), i.wellFormed = true →
    decodeBytesWith strict (encodeBytes i ++ rest) = .ok (i, rest)

/-- Under the spec's strict reading every instruction has one encoding: bytes that decode to `i` are the bytes of `i`, and
`i` is well-formed (R88, R89, the spec's decision D7; log 12). -/
def Obligations.EncodeOfDecode : Prop :=
  ∀ (bs rest : List Byte) (i : Instr), decodeBytesWith true bs = .ok (i, rest) →
    bs = encodeBytes i ++ rest ∧ i.wellFormed = true

/-- The words the manual prints (A.3: V1 to V4) and one of each further family decode to the instructions they stand for. -/
def Obligations.PrintedWordsDecode : Prop :=
  decodeTableWord 16 0x0000 = some .nop ∧ decodeTableWord 32 0x03E80800 = some (.load .r0 1000) ∧
    decodeTableWord 16 0x1940 = some (.add .r1 .r2) ∧ decodeTableWord 16 0x6064 = some (.jmp 100) ∧
    decodeTableWord 16 0x2840 = some (.and .r0 .r2) ∧ decodeTableWord 16 0x5208 = some (.shr .r2 8) ∧
    decodeTableWord 16 0x8900 = some (.str .r1 .r0) ∧ decodeTableWord 32 0x010EA000 = some (.call 0x010E) ∧
    decodeTableWord 16 0x9100 = some (.push .r1) ∧ decodeTableWord 16 0xB000 = some .halt

/-! ### The step -/

/-- Where the bytes at pc of a running machine decode to a well-formed instruction, the step executes it with pc moved past
its words (R86, R230, which the spec marks as its inference). -/
def Obligations.StepRunsTheDecodedInstruction : Prop :=
  ∀ (s : State) (i : Instr) (rest : List Byte), s.halted = false → decodeBytes s.bytesAtPc = .ok (i, rest) →
    step s = exec i (s.setPc (s.pc + BitVec.ofNat 16 (2 * i.words)))

/-- A state in which a program has been placed and pc is at one of its instructions executes that instruction (R51, R222). The
program does not overlap itself: it has at most 65,536 bytes. That `loadProgram` stands for the environment's loader is THE
MODEL'S CHOICE (log 24); that pc moves past both words of LOAD and CALL is the spec's inference (R86; C1, D12; log 13). -/
def Obligations.LoadedProgramRuns : Prop :=
  ∀ (m : Memory) (origin : Word) (before : List Instr) (i : Instr) (after : List Instr) (s : State),
    i.wellFormed = true → (Assembler.programWords (before ++ i :: after)).length ≤ 32768 → s.halted = false →
    s.mem = Assembler.loadProgram m origin (before ++ i :: after) →
    s.pc = origin + BitVec.ofNat 16 (2 * (Assembler.programWords before).length) →
    step s = exec i (s.setPc (s.pc + BitVec.ofNat 16 (2 * i.words)))

/-- How a step ends, in every state: a halted machine makes no step (R180), which is the refusal `processorHalted` by THE MODEL'S
CHOICE of its interface (log 18); a running one whose word 1 is an instruction's has a next state, for no instruction can stop
once decoded (R190, R194); any other word is a fault, the spec's decisions D6 and D7 (log 11, 12). -/
def Obligations.StepEndsOneOfThreeWays : Prop :=
  (∀ (i : Instr) (s : State), ∃ t, exec i s = .next t) ∧
    ∀ s : State,
      (s.halted = true → step s = .refused .processorHalted) ∧
      (s.halted = false → ((∃ t, step s = .next t) ↔ ∃ f, decodeFirst true (s.readWord s.pc) = .ok f)) ∧
      (s.halted = false → ((∃ r, step s = .fault r) ↔ ∃ e, decodeFirst true (s.readWord s.pc) = .error e))

/-- The fault IllegalOpcode(pc0, w1) is raised exactly where a running machine has a word from 0xB800 on at pc, and records that
address and word (R91, R193, the spec's decisions D6 and D17; log 11). -/
def Obligations.IllegalOpcodeExactlyFromB800 : Prop :=
  ∀ (s : State) (pc0 w1 : Word), step s = .fault (.illegalOpcode pc0 w1) ↔
    s.halted = false ∧ pc0 = s.pc ∧ w1 = s.readWord s.pc ∧ 0xB800 ≤ w1.toNat

/-- The fault ReservedEncoding(pc0, w1) is raised exactly where a running machine has at pc a word whose OP is a row's and whose
unused fields are not all zero (R88, R89, R193, the spec's decisions D7 and D17; log 12). -/
def Obligations.ReservedEncodingExactlyOnUnusedBits : Prop :=
  ∀ (s : State) (pc0 w1 : Word), step s = .fault (.reservedEncoding pc0 w1) ↔
    s.halted = false ∧ pc0 = s.pc ∧ w1 = s.readWord s.pc ∧
      ∃ row ∈ opcodeRows, w1 &&& 0xF800 = row.pattern ∧ w1 &&& row.mask ≠ row.pattern

/-- PC after every step, by instruction (R25, which the spec marks as its inference; the wrap is its decision D9). -/
def Obligations.PcAfterEveryStep : Prop :=
  ∀ (s s' : State) (i : Instr), fetch s = .next (i, s') → ∃ t, step s = .next t ∧ t.pc = pcAfter s i

/-- A jump, wherever it is executed, goes on or goes below 0x0800 (R150). -/
def Obligations.JumpsReachOnlyBelow2048 : Prop :=
  ∀ (s s' t : State) (i : Instr) (address : Word), fetch s = .next (i, s') → step s = .next t →
    (i = .jmp address → t.pc.toNat ≤ 0x07FF) ∧
      ((i = .jz address ∨ i = .jnz address ∨ i = .jn address) → t.pc = s.pc + 2 ∨ t.pc.toNat ≤ 0x07FF)

/-! ### Rules over all instructions -/

/-- R30: the flag writers are exactly ADD, SUB, AND, OR, XOR, NOT, SHL, SHR, CMP: every other instruction leaves FLAGS whole, and
each of these does change a flag somewhere. -/
def Obligations.FlagWritersAreExactlyNine : Prop :=
  (∀ (i : Instr) (s t : State), exec i s = .next t → writesFlags i = false → t.flags = s.flags) ∧
    ∀ i : Instr, writesFlags i = true → ∃ s t, exec i s = .next t ∧
      (t.flags.z ≠ s.flags.z ∨ t.flags.n ≠ s.flags.n ∨ t.flags.o ≠ s.flags.o)

/-- No flag is sticky: the flags after a flag writer do not depend on the flags before it (R29, which the spec marks as its
inference; log 21). -/
def Obligations.WrittenFlagsAreNotSticky : Prop :=
  ∀ (i : Instr) (s : State) (f : Flags), writesFlags i = true →
    ∃ t u, exec i s = .next t ∧ exec i (s.setFlags f) = .next u ∧ u.flags.z = t.flags.z ∧ u.flags.n = t.flags.n ∧
      u.flags.o = t.flags.o

/-- No step changes the reserved bits of FLAGS (R32, the spec's decision D21; that the model holds them is its own choice,
log 17). -/
def Obligations.StepKeepsReservedFlags : Prop :=
  ∀ s t : State, step s = .next t → t.flags.reserved = s.flags.reserved

/-- No instruction writes a general register but its destination (R23, which the spec marks as its inference). -/
def Obligations.OnlyTheDestinationIsWritten : Prop :=
  ∀ (i : Instr) (s t : State) (r : Reg), exec i s = .next t → destination i ≠ some r → t.reg r = s.reg r

/-- SP changes by -2 in PUSH and CALL, by +2 in POP and RET, and in no other instruction (R33, which the spec marks as its
inference). -/
def Obligations.StackPointerMovesByTwo : Prop :=
  ∀ (i : Instr) (s t : State), exec i s = .next t → t.sp = spAfter s.sp i

/-- Memory changes at the word STR, PUSH or CALL stores to, and nowhere else (R53, R66). -/
def Obligations.MemoryChangesOnlyWhereStored : Prop :=
  ∀ (i : Instr) (s t : State), exec i s = .next t →
    (storeAddress s i = none → SameMemory s t) ∧ ∀ a, storeAddress s i = some a → SameMemoryBut a s t

/-- A step halts the machine exactly when it executes HALT (R33, R180, R198). -/
def Obligations.OnlyHaltHalts : Prop :=
  ∀ (s s' t : State) (i : Instr), fetch s = .next (i, s') → step s = .next t → (t.halted = true ↔ i = .halt)

/-- Every step keeps memory in canonical form (the model's form of memory, log 5). -/
def Obligations.StepKeepsMemoryCanonical : Prop :=
  ∀ s t : State, s.Canonical → step s = .next t → t.Canonical

/-- No instruction reads O: two states that differ only in O and the reserved bits of FLAGS step alike, and the runs from them
reach alike and end alike (R31, which the spec marks as its inference). That the model holds the reserved bits is its own
choice (log 17). -/
def Obligations.OverflowIsNeverObserved : Prop :=
  ∀ s s' : State, AgreeButOverflow s s' →
    (∀ t, step s = .next t → ∃ t', step s' = .next t' ∧ AgreeButOverflow t t') ∧
      (∀ t, Reaches s t → ∃ t', Reaches s' t' ∧ AgreeButOverflow t t') ∧
      (∀ t, Completed s t → ∃ t', Completed s' t' ∧ AgreeButOverflow t t') ∧ ∀ f, Faulted s f → Faulted s' f

/-! ### Runs -/

/-- A run completes exactly when a step of it executes HALT, and its final state is the state after that step: halted, pc at
HALT's address + 2 (R231, the spec's decision D19; log 16). -/
def Obligations.RunCompletesExactlyAtHalt : Prop :=
  ∀ s t : State, s.halted = false →
    (Completed s t ↔ ∃ u, Reaches s u ∧ u.halted = false ∧ u.readWord u.pc = 0xB000 ∧
      t = (u.setPc (u.pc + 2)).setHalted true)

/-- A run that completes has one final state and records no fault (R193, R230, R231). -/
def Obligations.CompletedRunIsUniqueAndFaultFree : Prop :=
  ∀ s t : State, Completed s t → (∀ t', Completed s t' → t' = t) ∧ FaultFree s

/-! ### The assembler -/

/-- Every instruction of an assembled program is well-formed, and an immediate that does not fit is rejected, not truncated: a
jump's address beyond 2047 (R97, the spec's reading for a tool, D22), and, THE MODEL'S CHOICE (log 23), a shift's count beyond 31
and a LOAD value or a CALL address beyond 65535. One that fits is accepted (R92). An instruction built carries exactly the number
written, and a statement that is rejected leaves no program. -/
def Obligations.AssembledProgramIsWellFormed : Prop :=
  (∀ (origin : Nat) (source : String) (program : List Instr), Assembler.assemble origin source = .ok program →
      ∀ i ∈ program, i.wellFormed = true) ∧
    (∀ name ∈ ["JMP", "JZ", "JNZ", "JN"], ∀ n : Nat,
      (2047 < n → Assembler.buildAddress name n = .error .operandOutOfRange) ∧
        (n ≤ 2047 → ∃ i, Assembler.buildAddress name n = .ok i ∧ i.mnemonic = name ∧ immediate i = some n)) ∧
    (∀ n : Nat, (65535 < n → Assembler.buildAddress "CALL" n = .error .operandOutOfRange) ∧
      (n ≤ 65535 → ∃ i, Assembler.buildAddress "CALL" n = .ok i ∧ i.mnemonic = "CALL" ∧ immediate i = some n)) ∧
    (∀ name ∈ ["SHL", "SHR"], ∀ (rd : Reg) (n : Nat),
      (31 < n → Assembler.buildImmediate name rd n = .error .operandOutOfRange) ∧
        (n ≤ 31 → ∃ i, Assembler.buildImmediate name rd n = .ok i ∧ i.mnemonic = name ∧ destination i = some rd ∧
          immediate i = some n)) ∧
    (∀ (rd : Reg) (n : Nat), (65535 < n → Assembler.buildImmediate "LOAD" rd n = .error .operandOutOfRange) ∧
      (n ≤ 65535 → ∃ i, Assembler.buildImmediate "LOAD" rd n = .ok i ∧ i.mnemonic = "LOAD" ∧ destination i = some rd ∧
        immediate i = some n)) ∧
    (∀ (labels : List (String × Nat)) (mnemonic : String) (operands : List Assembler.Operand) (i : Instr),
      Assembler.build labels mnemonic operands = .ok i →
        i.mnemonic = mnemonic ∧ immediate i = Assembler.writtenNumber labels operands) ∧
    ∀ (labels : List (String × Nat)) (statements : List Assembler.Statement) (mnemonic : String)
      (operands : List Assembler.Operand) (e : Assembler.AsmError), .instruction mnemonic operands ∈ statements →
      Assembler.build labels mnemonic operands = .error e → ∀ program, Assembler.buildAll labels statements ≠ .ok program

/-- A label's value is the byte address of the first word of the instruction after it: the origin and the length of all the
instructions before (R94). Where no instruction comes after it, that it has this value all the same, the address behind the last
word, is THE MODEL'S CHOICE (log 23). That it is not reduced modulo 65536 past the top of memory is THE MODEL'S CHOICE (log 28). -/
def Obligations.LabelIsTheNextInstructionsAddress : Prop :=
  ∀ (origin : Nat) (labels : List (String × Nat)) (before after : List Assembler.Statement) (name : String)
    (program : List Instr), Assembler.buildAll labels before = .ok program →
    (name, origin + 2 * (Assembler.programWords program).length) ∈
      Assembler.labelValues origin (before ++ .label name :: after)

/-! ### The parameters of the step -/

/-- The step under other values of R7's parameters. MEM_MAP: the step of a running machine is refused at the first byte it
accesses where there is no RAM, and is the step of the machine whose memory is all RAM where every byte it accesses is RAM; a
halted machine accesses none. The spec puts a platform with another MEM_MAP outside itself, and the refusals are THE MODEL'S CHOICE
(D13; log 14, 18). With STRICT_UNUSED_FIELDS = false a word executes as the instruction its OP names, that is as the word whose
unused fields, the bits the row's mask asks to be zero, have been cleared (R89, the spec's decision D7; log 12). -/
def Obligations.ParametersOfTheStep : Prop :=
  (∀ (p : Parameters) (s : State),
      (s.halted = true → stepUnder p s = .refused .processorHalted) ∧
      (s.halted = false → (∀ a ∈ accessedBytes p.strictUnusedFields s, p.memMap a = true) →
        stepUnder p s = stepUnder { p with memMap := Config.memMap } s) ∧
      ∀ (before : List Word) (a : Word) (after : List Word), s.halted = false →
        accessedBytes p.strictUnusedFields s = before ++ a :: after → (∀ b ∈ before, p.memMap b = true) →
        p.memMap a = false → stepUnder p s = .refused (.outsideMemMap a)) ∧
    ∀ row ∈ opcodeRows, ∀ s : State, s.halted = false → s.readWord s.pc &&& 0xF800 = row.pattern →
      ∃ f, decodeFirst true (s.readWord s.pc &&& (0xF800 ||| ~~~row.mask)) = .ok f ∧
        stepUnder { Config.parameters with strictUnusedFields := false } s =
          exec (f.withSecond (s.readWord (s.pc + 2))) (s.setPc (s.pc + BitVec.ofNat 16 (2 * f.words)))
end

