-- ==== Sys2Proof/Laws/Memory.lean ====
section
/-! SUPPORT. What the operations over memory do: a read after a write, and the canonical form they keep. -/

namespace Sys2Proof.Machine

theorem Memory.readByte_of_absent {m : Memory} {a : Word} (h : ∀ c ∈ m, c.1 ≠ a.toNat) :
    m.readByte a = Config.unlistedByte := by
  induction m with
  | nil => rfl
  | cons c rest ih =>
    simp only [List.forall_mem_cons] at h
    simp [Memory.readByte, h.1, ih h.2]

theorem Memory.readByte_filter_other {m : Memory} {a b : Word} (h : b ≠ a) :
    Memory.readByte (m.filter fun c => decide (c.1 ≠ a.toNat)) b = m.readByte b := by
  have hne : a.toNat ≠ b.toNat := fun e => h (BitVec.eq_of_toNat_eq e.symm)
  induction m with
  | nil => rfl
  | cons c rest ih =>
    by_cases hc : c.1 = a.toNat
    · have : c.1 ≠ b.toNat := by omega
      simpa [Memory.readByte, hc, hne] using ih
    · simp only [List.filter_cons, hc, ne_eq, not_false_eq_true, decide_true, if_true, Memory.readByte]
      split
      · rfl
      · simpa using ih

theorem Memory.readByte_insertCell_same {m : Memory} {a : Word} {v : Byte} (h : ∀ c ∈ m, c.1 ≠ a.toNat) :
    Memory.readByte (Memory.insertCell m a.toNat v) a = v := by
  induction m with
  | nil => simp [Memory.insertCell, Memory.readByte]
  | cons c rest ih =>
    simp only [List.forall_mem_cons] at h
    simp only [Memory.insertCell]
    split
    · simp [Memory.readByte]
    · simpa [Memory.readByte, h.1] using ih h.2

theorem Memory.readByte_insertCell_other {m : Memory} {a b : Word} {v : Byte} (h : b ≠ a) :
    Memory.readByte (Memory.insertCell m a.toNat v) b = m.readByte b := by
  have hne : a.toNat ≠ b.toNat := fun e => h (BitVec.eq_of_toNat_eq e.symm)
  induction m with
  | nil => simp [Memory.insertCell, Memory.readByte, hne]
  | cons c rest ih =>
    simp only [Memory.insertCell]
    split
    · simp [Memory.readByte, hne]
    · simp only [Memory.readByte]
      split
      · rfl
      · exact ih

theorem Memory.filter_absent (m : Memory) (a : Word) :
    ∀ c ∈ (m.filter fun c => decide (c.1 ≠ a.toNat)), c.1 ≠ a.toNat := by
  intro c hc
  simpa using (List.mem_filter.mp hc).2

/-- A read of the byte just written gives it, in every memory. -/
@[simp] theorem Memory.readByte_writeByte_same (m : Memory) (a : Word) (v : Byte) :
    (m.writeByte a v).readByte a = v := by
  simp only [Memory.writeByte]
  split
  · next h => rw [h]; exact Memory.readByte_of_absent (Memory.filter_absent m a)
  · exact Memory.readByte_insertCell_same (Memory.filter_absent m a)

/-- A write of one byte leaves every other byte alone, in every memory. -/
theorem Memory.readByte_writeByte_other {m : Memory} {a b : Word} {v : Byte} (h : b ≠ a) :
    (m.writeByte a v).readByte b = m.readByte b := by
  simp only [Memory.writeByte]
  split
  · exact Memory.readByte_filter_other h
  · rw [Memory.readByte_insertCell_other h, Memory.readByte_filter_other h]

/-- What a write of one byte does, said once. -/
theorem Memory.readByte_writeByte (m : Memory) (a b : Word) (v : Byte) :
    (m.writeByte a v).readByte b = if b = a then v else m.readByte b := by
  split
  · next h => rw [h, Memory.readByte_writeByte_same]
  · next h => exact Memory.readByte_writeByte_other h

/-- What a write of one word does to each byte, said once. -/
theorem Memory.readByte_writeWord (m : Memory) (a b v : Word) :
    (m.writeWord a v).readByte b =
      if b = a + 1 then highByte v else if b = a then lowByte v else m.readByte b := by
  simp only [Memory.writeWord, Memory.readByte_writeByte]

theorem wordOfBytes_high_low (v : Word) : wordOfBytes (highByte v) (lowByte v) = v := by
  apply BitVec.eq_of_getLsbD_eq
  intro i hi
  simp only [wordOfBytes, highByte, lowByte, BitVec.getLsbD_append, BitVec.getLsbD_extractLsb']
  by_cases h : i < 8
  · simp [h]
  · have h1 : i - 8 < 8 := by omega
    have h2 : 8 + (i - 8) = i := by omega
    simp [h, h1, h2]

/-- A word read from where it was just written. -/
@[simp] theorem Memory.readWord_writeWord_same (m : Memory) (a v : Word) : (m.writeWord a v).readWord a = v := by
  simp [Memory.readWord, Memory.readByte_writeWord, wordOfBytes_high_low]

/-! ### The canonical form -/

theorem Memory.wf_nil : Memory.wf [] := by simp [Memory.wf]

theorem Memory.insertCell_mem {m : Memory} {a : Nat} {v : Byte} {c : Host.Cell}
    (h : c ∈ Memory.insertCell m a v) : c = (a, v) ∨ c ∈ m := by
  induction m with
  | nil => simpa [Memory.insertCell] using h
  | cons d rest ih =>
    simp only [Memory.insertCell] at h
    split at h
    · simpa using h
    · rcases List.mem_cons.mp h with h | h
      · exact .inr (by simp [h])
      · rcases ih h with h | h
        · exact .inl h
        · exact .inr (List.mem_cons_of_mem _ h)

theorem Memory.insertCell_rising {m : Memory} {a : Nat} {v : Byte}
    (h : m.Pairwise fun x y => x.1 < y.1) (ha : ∀ c ∈ m, c.1 ≠ a) :
    (Memory.insertCell m a v).Pairwise fun x y => x.1 < y.1 := by
  induction m with
  | nil => simp [Memory.insertCell]
  | cons d rest ih =>
    rw [List.pairwise_cons] at h
    simp only [List.forall_mem_cons] at ha
    simp only [Memory.insertCell]
    split
    · next hlt =>
      refine List.pairwise_cons.mpr ⟨?_, List.pairwise_cons.mpr h⟩
      intro c hc
      rcases List.mem_cons.mp hc with rfl | hc
      · exact hlt
      · exact Nat.lt_trans hlt (h.1 c hc)
    · next hge =>
      refine List.pairwise_cons.mpr ⟨?_, ih h.2 ha.2⟩
      intro c hc
      rcases Memory.insertCell_mem hc with rfl | hc
      · have : d.1 ≠ a := ha.1
        show d.1 < a
        omega
      · exact h.1 c hc

/-- A write of one byte keeps the canonical form. -/
theorem Memory.wf_writeByte {m : Memory} (h : m.wf) (a : Word) (v : Byte) : (m.writeByte a v).wf := by
  have hf : Memory.wf (m.filter fun c => decide (c.1 ≠ a.toNat)) :=
    ⟨h.1.filter _, fun c hc => h.2 c (List.mem_filter.mp hc).1⟩
  simp only [Memory.writeByte]
  split
  · exact hf
  · next hv =>
    refine ⟨Memory.insertCell_rising hf.1 (Memory.filter_absent m a), fun c hc => ?_⟩
    rcases Memory.insertCell_mem hc with rfl | hc
    · exact ⟨a.isLt, hv⟩
    · exact hf.2 c hc

/-- A write of one word keeps the canonical form. -/
theorem Memory.wf_writeWord {m : Memory} (h : m.wf) (a v : Word) : (m.writeWord a v).wf :=
  Memory.wf_writeByte (Memory.wf_writeByte h _ _) _ _

/-- Placing a program keeps the canonical form. -/
theorem Memory.wf_storeWords (ws : List Word) : ∀ {m : Memory} (_ : m.wf) (a : Word), (m.storeWords a ws).wf := by
  induction ws with
  | nil => exact fun h _ => h
  | cons w ws ih => exact fun h a => ih (Memory.wf_writeWord h a w) (a + 2)

end Sys2Proof.Machine
end

