-- ==== Sys2Proof/Laws/PerInstr.lean ====
section
/-! SUPPORT. Statements about every instruction as syntax, one lemma per constructor (LAWS.json). -/

namespace Sys2Proof.Laws.EncodingLength

/-- The encoding has as many words as R85 gives the instruction, and twice as many bytes. -/
def Statement (i : Instr) : Prop := (encode i).length = i.words ∧ (encodeBytes i).length = 2 * i.words

theorem nop : Statement .nop := ⟨rfl, rfl⟩
theorem load (rd : Reg) (value : Word) : Statement (.load rd value) := ⟨rfl, rfl⟩
theorem mov (rd rs : Reg) : Statement (.mov rd rs) := ⟨rfl, rfl⟩
theorem add (rd rs : Reg) : Statement (.add rd rs) := ⟨rfl, rfl⟩
theorem sub (rd rs : Reg) : Statement (.sub rd rs) := ⟨rfl, rfl⟩
theorem and (rd rs : Reg) : Statement (.and rd rs) := ⟨rfl, rfl⟩
theorem or (rd rs : Reg) : Statement (.or rd rs) := ⟨rfl, rfl⟩
theorem xor (rd rs : Reg) : Statement (.xor rd rs) := ⟨rfl, rfl⟩
theorem not (rd : Reg) : Statement (.not rd) := ⟨rfl, rfl⟩
theorem shl (rd : Reg) (count : Nat) : Statement (.shl rd count) := ⟨rfl, rfl⟩
theorem shr (rd : Reg) (count : Nat) : Statement (.shr rd count) := ⟨rfl, rfl⟩
theorem cmp (rd rs : Reg) : Statement (.cmp rd rs) := ⟨rfl, rfl⟩
theorem jmp (address : Word) : Statement (.jmp address) := ⟨rfl, rfl⟩
theorem jz (address : Word) : Statement (.jz address) := ⟨rfl, rfl⟩
theorem jnz (address : Word) : Statement (.jnz address) := ⟨rfl, rfl⟩
theorem jn (address : Word) : Statement (.jn address) := ⟨rfl, rfl⟩
theorem ldr (rd rs : Reg) : Statement (.ldr rd rs) := ⟨rfl, rfl⟩
theorem str (rd rs : Reg) : Statement (.str rd rs) := ⟨rfl, rfl⟩
theorem push (rs : Reg) : Statement (.push rs) := ⟨rfl, rfl⟩
theorem pop (rd : Reg) : Statement (.pop rd) := ⟨rfl, rfl⟩
theorem call (address : Word) : Statement (.call address) := ⟨rfl, rfl⟩
theorem ret : Statement .ret := ⟨rfl, rfl⟩
theorem halt : Statement .halt := ⟨rfl, rfl⟩

end Sys2Proof.Laws.EncodingLength
end

