-- ==== Sys2Proof/Laws/Runs.lean ====
section
/-! SUPPORT. The one induction over the steps of a run, and the bytes of a word access. -/

namespace Sys2Proof.Machine

@[simp] theorem wordBytes_none : wordBytes none = [] := rfl
@[simp] theorem wordBytes_some (a : Word) : wordBytes (some a) = [a, a + 1] := rfl

/-- What every step of a machine keeps holds in every state a run reaches from a state where it holds. -/
theorem reachesBy_keeps {machine : State → Host.Outcome State Fault Refusal} {Inv : State → Prop}
    (keeps : ∀ t u, Inv t → machine t = .next u → Inv u) {s t : State} (hs : Inv s) (h : ReachesBy machine s t) : Inv t := by
  induction h with
  | refl => exact hs
  | tail _ hu ih => exact keeps _ _ ih hu

/-- What every step keeps holds in every state a run reaches from a state where it holds. -/
theorem reaches_keeps {Inv : State → Prop} (keeps : ∀ t u, Inv t → step t = .next u → Inv u) {s t : State}
    (hs : Inv s) (h : Reaches s t) : Inv t := reachesBy_keeps keeps hs h

end Sys2Proof.Machine
end

