-- ==== Sys2Proof/Laws/State.lean ====
section
/-! SUPPORT. The small lemmas of State: one per field per update, and what each shared operation leaves in each field. -/

namespace Sys2Proof.Machine

/-! ### Registers -/

@[simp] theorem Regs.get_set_same (x : Regs) (r : Reg) (v : Word) : (x.set r v).get r = v := by cases r <;> rfl

theorem Regs.get_set_other {x : Regs} {r q : Reg} {v : Word} (h : q ≠ r) : (x.set r v).get q = x.get q := by
  cases r <;> cases q <;> first | rfl | exact absurd rfl h

/-- What a write of a register does, said once. -/
theorem Regs.get_set (x : Regs) (r q : Reg) (v : Word) : (x.set r v).get q = if q = r then v else x.get q := by
  split
  · next h => rw [h, Regs.get_set_same]
  · next h => exact Regs.get_set_other h

/-- What a write of a register does to each register. -/
theorem State.reg_setReg (s : State) (r q : Reg) (v : Word) :
    (s.setReg r v).reg q = if q = r then v else s.reg q := Regs.get_set s.regs r q v

@[simp] theorem State.reg_setReg_same (s : State) (r : Reg) (v : Word) : (s.setReg r v).reg r = v :=
  Regs.get_set_same s.regs r v

/-! ### setReg -/

@[simp] theorem State.setReg_regs (s : State) (r : Reg) (v : Word) : (s.setReg r v).regs = s.regs.set r v := rfl
@[simp] theorem State.setReg_pc (s : State) (r : Reg) (v : Word) : (s.setReg r v).pc = s.pc := rfl
@[simp] theorem State.setReg_sp (s : State) (r : Reg) (v : Word) : (s.setReg r v).sp = s.sp := rfl
@[simp] theorem State.setReg_flags (s : State) (r : Reg) (v : Word) : (s.setReg r v).flags = s.flags := rfl
@[simp] theorem State.setReg_halted (s : State) (r : Reg) (v : Word) : (s.setReg r v).halted = s.halted := rfl
@[simp] theorem State.setReg_mem (s : State) (r : Reg) (v : Word) : (s.setReg r v).mem = s.mem := rfl
@[simp] theorem State.setReg_readByte (s : State) (r : Reg) (v : Word) (c : Word) : (s.setReg r v).readByte c = s.readByte c := rfl
@[simp] theorem State.setReg_readWord (s : State) (r : Reg) (v : Word) (c : Word) : (s.setReg r v).readWord c = s.readWord c := rfl

/-! ### setPc -/

@[simp] theorem State.setPc_regs (s : State) (v : Word) : (s.setPc v).regs = s.regs := rfl
@[simp] theorem State.setPc_pc (s : State) (v : Word) : (s.setPc v).pc = v := rfl
@[simp] theorem State.setPc_sp (s : State) (v : Word) : (s.setPc v).sp = s.sp := rfl
@[simp] theorem State.setPc_flags (s : State) (v : Word) : (s.setPc v).flags = s.flags := rfl
@[simp] theorem State.setPc_halted (s : State) (v : Word) : (s.setPc v).halted = s.halted := rfl
@[simp] theorem State.setPc_mem (s : State) (v : Word) : (s.setPc v).mem = s.mem := rfl
@[simp] theorem State.setPc_reg (s : State) (v : Word) (q : Reg) : (s.setPc v).reg q = s.reg q := rfl
@[simp] theorem State.setPc_readByte (s : State) (v : Word) (c : Word) : (s.setPc v).readByte c = s.readByte c := rfl
@[simp] theorem State.setPc_readWord (s : State) (v : Word) (c : Word) : (s.setPc v).readWord c = s.readWord c := rfl

/-! ### setSp -/

@[simp] theorem State.setSp_regs (s : State) (v : Word) : (s.setSp v).regs = s.regs := rfl
@[simp] theorem State.setSp_pc (s : State) (v : Word) : (s.setSp v).pc = s.pc := rfl
@[simp] theorem State.setSp_sp (s : State) (v : Word) : (s.setSp v).sp = v := rfl
@[simp] theorem State.setSp_flags (s : State) (v : Word) : (s.setSp v).flags = s.flags := rfl
@[simp] theorem State.setSp_halted (s : State) (v : Word) : (s.setSp v).halted = s.halted := rfl
@[simp] theorem State.setSp_mem (s : State) (v : Word) : (s.setSp v).mem = s.mem := rfl
@[simp] theorem State.setSp_reg (s : State) (v : Word) (q : Reg) : (s.setSp v).reg q = s.reg q := rfl
@[simp] theorem State.setSp_readByte (s : State) (v : Word) (c : Word) : (s.setSp v).readByte c = s.readByte c := rfl
@[simp] theorem State.setSp_readWord (s : State) (v : Word) (c : Word) : (s.setSp v).readWord c = s.readWord c := rfl

/-! ### setFlags -/

@[simp] theorem State.setFlags_regs (s : State) (f : Flags) : (s.setFlags f).regs = s.regs := rfl
@[simp] theorem State.setFlags_pc (s : State) (f : Flags) : (s.setFlags f).pc = s.pc := rfl
@[simp] theorem State.setFlags_sp (s : State) (f : Flags) : (s.setFlags f).sp = s.sp := rfl
@[simp] theorem State.setFlags_flags (s : State) (f : Flags) : (s.setFlags f).flags = f := rfl
@[simp] theorem State.setFlags_halted (s : State) (f : Flags) : (s.setFlags f).halted = s.halted := rfl
@[simp] theorem State.setFlags_mem (s : State) (f : Flags) : (s.setFlags f).mem = s.mem := rfl
@[simp] theorem State.setFlags_reg (s : State) (f : Flags) (q : Reg) : (s.setFlags f).reg q = s.reg q := rfl
@[simp] theorem State.setFlags_readByte (s : State) (f : Flags) (c : Word) : (s.setFlags f).readByte c = s.readByte c := rfl
@[simp] theorem State.setFlags_readWord (s : State) (f : Flags) (c : Word) : (s.setFlags f).readWord c = s.readWord c := rfl

/-! ### setHalted -/

@[simp] theorem State.setHalted_regs (s : State) (b : Bool) : (s.setHalted b).regs = s.regs := rfl
@[simp] theorem State.setHalted_pc (s : State) (b : Bool) : (s.setHalted b).pc = s.pc := rfl
@[simp] theorem State.setHalted_sp (s : State) (b : Bool) : (s.setHalted b).sp = s.sp := rfl
@[simp] theorem State.setHalted_flags (s : State) (b : Bool) : (s.setHalted b).flags = s.flags := rfl
@[simp] theorem State.setHalted_halted (s : State) (b : Bool) : (s.setHalted b).halted = b := rfl
@[simp] theorem State.setHalted_mem (s : State) (b : Bool) : (s.setHalted b).mem = s.mem := rfl
@[simp] theorem State.setHalted_reg (s : State) (b : Bool) (q : Reg) : (s.setHalted b).reg q = s.reg q := rfl
@[simp] theorem State.setHalted_readByte (s : State) (b : Bool) (c : Word) : (s.setHalted b).readByte c = s.readByte c := rfl
@[simp] theorem State.setHalted_readWord (s : State) (b : Bool) (c : Word) : (s.setHalted b).readWord c = s.readWord c := rfl

/-! ### writeWord -/

@[simp] theorem State.writeWord_regs (s : State) (a v : Word) : (s.writeWord a v).regs = s.regs := rfl
@[simp] theorem State.writeWord_pc (s : State) (a v : Word) : (s.writeWord a v).pc = s.pc := rfl
@[simp] theorem State.writeWord_sp (s : State) (a v : Word) : (s.writeWord a v).sp = s.sp := rfl
@[simp] theorem State.writeWord_flags (s : State) (a v : Word) : (s.writeWord a v).flags = s.flags := rfl
@[simp] theorem State.writeWord_halted (s : State) (a v : Word) : (s.writeWord a v).halted = s.halted := rfl
@[simp] theorem State.writeWord_mem (s : State) (a v : Word) : (s.writeWord a v).mem = s.mem.writeWord a v := rfl
@[simp] theorem State.writeWord_reg (s : State) (a v : Word) (q : Reg) : (s.writeWord a v).reg q = s.reg q := rfl

/-! ### pushWord -/

@[simp] theorem State.pushWord_regs (s : State) (v : Word) : (s.pushWord v).regs = s.regs := rfl
@[simp] theorem State.pushWord_pc (s : State) (v : Word) : (s.pushWord v).pc = s.pc := rfl
@[simp] theorem State.pushWord_sp (s : State) (v : Word) : (s.pushWord v).sp = s.sp - 2 := rfl
@[simp] theorem State.pushWord_flags (s : State) (v : Word) : (s.pushWord v).flags = s.flags := rfl
@[simp] theorem State.pushWord_halted (s : State) (v : Word) : (s.pushWord v).halted = s.halted := rfl
@[simp] theorem State.pushWord_mem (s : State) (v : Word) : (s.pushWord v).mem = s.mem.writeWord (s.sp - 2) v := rfl
@[simp] theorem State.pushWord_reg (s : State) (v : Word) (q : Reg) : (s.pushWord v).reg q = s.reg q := rfl

/-! ### dropWord -/

@[simp] theorem State.dropWord_regs (s : State) : (s.dropWord).regs = s.regs := rfl
@[simp] theorem State.dropWord_pc (s : State) : (s.dropWord).pc = s.pc := rfl
@[simp] theorem State.dropWord_sp (s : State) : (s.dropWord).sp = s.sp + 2 := rfl
@[simp] theorem State.dropWord_flags (s : State) : (s.dropWord).flags = s.flags := rfl
@[simp] theorem State.dropWord_halted (s : State) : (s.dropWord).halted = s.halted := rfl
@[simp] theorem State.dropWord_mem (s : State) : (s.dropWord).mem = s.mem := rfl
@[simp] theorem State.dropWord_reg (s : State) (q : Reg) : (s.dropWord).reg q = s.reg q := rfl
@[simp] theorem State.dropWord_readByte (s : State) (c : Word) : (s.dropWord).readByte c = s.readByte c := rfl

/-! ### setResultFlags -/

@[simp] theorem State.setResultFlags_regs (s : State) (r : Word) (o : Bool) : (s.setResultFlags r o).regs = s.regs := rfl
@[simp] theorem State.setResultFlags_pc (s : State) (r : Word) (o : Bool) : (s.setResultFlags r o).pc = s.pc := rfl
@[simp] theorem State.setResultFlags_sp (s : State) (r : Word) (o : Bool) : (s.setResultFlags r o).sp = s.sp := rfl
@[simp] theorem State.setResultFlags_flags (s : State) (r : Word) (o : Bool) : (s.setResultFlags r o).flags = s.flags.result r o := rfl
@[simp] theorem State.setResultFlags_halted (s : State) (r : Word) (o : Bool) : (s.setResultFlags r o).halted = s.halted := rfl
@[simp] theorem State.setResultFlags_mem (s : State) (r : Word) (o : Bool) : (s.setResultFlags r o).mem = s.mem := rfl
@[simp] theorem State.setResultFlags_reg (s : State) (r : Word) (o : Bool) (q : Reg) : (s.setResultFlags r o).reg q = s.reg q := rfl
@[simp] theorem State.setResultFlags_readByte (s : State) (r : Word) (o : Bool) (c : Word) : (s.setResultFlags r o).readByte c = s.readByte c := rfl

/-! ### setResult -/

@[simp] theorem State.setResult_regs (s : State) (rd : Reg) (r : Word) (o : Bool) : (s.setResult rd r o).regs = s.regs.set rd r := rfl
@[simp] theorem State.setResult_pc (s : State) (rd : Reg) (r : Word) (o : Bool) : (s.setResult rd r o).pc = s.pc := rfl
@[simp] theorem State.setResult_sp (s : State) (rd : Reg) (r : Word) (o : Bool) : (s.setResult rd r o).sp = s.sp := rfl
@[simp] theorem State.setResult_flags (s : State) (rd : Reg) (r : Word) (o : Bool) : (s.setResult rd r o).flags = s.flags.result r o := rfl
@[simp] theorem State.setResult_halted (s : State) (rd : Reg) (r : Word) (o : Bool) : (s.setResult rd r o).halted = s.halted := rfl
@[simp] theorem State.setResult_mem (s : State) (rd : Reg) (r : Word) (o : Bool) : (s.setResult rd r o).mem = s.mem := rfl
@[simp] theorem State.setResult_readByte (s : State) (rd : Reg) (r : Word) (o : Bool) (c : Word) : (s.setResult rd r o).readByte c = s.readByte c := rfl

/-! ### What the shared operations do -/

/-- What a write of a word does to each byte of the state's memory, said once. -/
theorem State.readByte_writeWord (s : State) (a b v : Word) :
    (s.writeWord a v).readByte b =
      if b = a + 1 then highByte v else if b = a then lowByte v else s.readByte b :=
  Memory.readByte_writeWord s.mem a b v

/-- A write of a word leaves every byte outside it alone. -/
theorem State.readByte_writeWord_other {s : State} {a b v : Word} (h : b ≠ a) (h' : b ≠ a + 1) :
    (s.writeWord a v).readByte b = s.readByte b := by
  rw [State.readByte_writeWord, if_neg h', if_neg h]

/-- What a push does to each byte of memory, said once. -/
theorem State.readByte_pushWord (s : State) (b v : Word) :
    (s.pushWord v).readByte b =
      if b = pushAddress s + 1 then highByte v else if b = pushAddress s then lowByte v else s.readByte b :=
  Memory.readByte_writeWord s.mem (s.sp - 2) b v

/-- What is on top of the stack after a push. -/
@[simp] theorem State.topWord_pushWord (s : State) (v : Word) : (s.pushWord v).topWord = v :=
  Memory.readWord_writeWord_same s.mem (s.sp - 2) v

/-- What the write of a result does to each register. -/
theorem State.reg_setResult (s : State) (rd q : Reg) (r : Word) (o : Bool) :
    (s.setResult rd r o).reg q = if q = rd then r else s.reg q := Regs.get_set s.regs rd q r

@[simp] theorem Flags.result_z (f : Flags) (r : Word) (o : Bool) : (f.result r o).z = zeroFlag r := rfl
@[simp] theorem Flags.result_n (f : Flags) (r : Word) (o : Bool) : (f.result r o).n = negativeFlag r := rfl
@[simp] theorem Flags.result_o (f : Flags) (r : Word) (o : Bool) : (f.result r o).o = o := rfl
@[simp] theorem Flags.result_reserved (f : Flags) (r : Word) (o : Bool) : (f.result r o).reserved = f.reserved := rfl

/-- What a conditional jump does, said once: pc alone, and only where the condition holds. -/
theorem jumpIf_eq (c : Bool) (a : Word) (s : State) : jumpIf c a s = s.setPc (if c then a else s.pc) := by
  cases c <;> rfl

/-! ### Fetch and step -/

/-- At the spec's own MEM_MAP no access is refused. -/
@[simp] theorem ifRam_parameters {α : Type} (a : Option Word) (go : Host.Outcome α Fault Refusal) :
    ifRam Config.parameters a go = go := by cases a <;> rfl

/-- Everything `ifRam` can do: go on, or refuse at an address that is no RAM. -/
theorem ifRam_cases {α : Type} (p : Parameters) (a : Option Word) (go : Host.Outcome α Fault Refusal) :
    ifRam p a go = go ∨ ∃ b, p.memMap b = false ∧ ifRam p a go = .refused (.outsideMemMap b) := by
  cases a with
  | none => exact .inl rfl
  | some a =>
    simp only [ifRam, Bool.not_eq_true']
    split
    · next h => exact .inr ⟨a, h, rfl⟩
    · split
      · next h => exact .inr ⟨a + 1, h, rfl⟩
      · exact .inl rfl

/-- The fetch at the spec's own values of the parameters, without the parameters. -/
theorem fetch_eq (s : State) : fetch s =
    if s.halted then .refused .processorHalted
    else match decodeFirst true (s.readWord s.pc) with
      | .error e => .fault (faultOf s.pc (s.readWord s.pc) e)
      | .ok f => .next (fetchSecond f (s.setPc (s.pc + 2))) := by
  unfold fetch fetchUnder
  simp only [ifRam_parameters]
  rfl

/-- The step at the spec's own values of the parameters, without the parameters: fetch, then execute. -/
theorem step_eq (s : State) : step s =
    match fetch s with
    | .next (i, s') => exec i s'
    | .fault r => .fault r
    | .refused r => .refused r := by
  unfold step stepUnder
  simp only [ifRam_parameters]
  rfl

/-- An access that answers went on. -/
theorem ifRam_next {α : Type} {p : Parameters} {a : Option Word} {go : Host.Outcome α Fault Refusal} {x : α}
    (h : ifRam p a go = .next x) : go = .next x := by
  rcases ifRam_cases p a go with hg | ⟨b, _, hb⟩
  · rw [← hg, h]
  · rw [hb] at h; cases h

/-- Everything a fetch that answers can do, under any parameters: the machine runs, word 1 is an instruction's, and pc alone
has moved. -/
theorem fetchUnder_next {p : Parameters} {s s' : State} {i : Instr} (h : fetchUnder p s = .next (i, s')) :
    s.halted = false ∧ ∃ f, decodeFirst p.strictUnusedFields (s.readWord s.pc) = .ok f ∧
      (i, s') = fetchSecond f (s.setPc (s.pc + 2)) := by
  unfold fetchUnder at h
  split at h
  · cases h
  · next hh =>
    have h := ifRam_next h
    split at h
    · cases h
    · next f hf => exact ⟨by simpa using hh, f, hf, (Host.Outcome.next.inj (ifRam_next h)).symm⟩

/-- Everything a step that answers can do, under any parameters: it executes the fetched instruction. -/
theorem stepUnder_next {p : Parameters} {s t : State} (h : stepUnder p s = .next t) :
    ∃ i s', fetchUnder p s = .next (i, s') ∧ exec i s' = .next t := by
  unfold stepUnder at h
  split at h
  · next i s' hf => exact ⟨i, s', hf, ifRam_next h⟩
  · cases h
  · cases h

/-- Everything a fetch that answers can do: the machine runs, word 1 is an instruction's, and pc alone has moved. -/
theorem fetch_next {s s' : State} {i : Instr} (h : fetch s = .next (i, s')) :
    s.halted = false ∧ ∃ f, decodeFirst true (s.readWord s.pc) = .ok f ∧
      (i, s') = fetchSecond f (s.setPc (s.pc + 2)) := fetchUnder_next h

/-- The state that a fetch hands to the execute phase differs from the state before in pc alone. -/
theorem fetch_next_setPc {s s' : State} {i : Instr} (h : fetch s = .next (i, s')) : ∃ p, s' = s.setPc p := by
  obtain ⟨_, f, _, hf⟩ := fetch_next h
  cases f <;> simp only [fetchSecond, Prod.mk.injEq] at hf <;> exact ⟨_, hf.2⟩

/-- Everything a step that answers can do: it executes the fetched instruction. -/
theorem step_next {s t : State} (h : step s = .next t) :
    ∃ i s', fetch s = .next (i, s') ∧ exec i s' = .next t := stepUnder_next h

/-- A step that fetches executes. -/
theorem step_of_fetch {s s' : State} {i : Instr} (h : fetch s = .next (i, s')) : step s = exec i s' := by
  rw [step_eq, h]

end Sys2Proof.Machine
end

