-- ==== Sys2Proof/Tests/Slice0.lean ====
section
/-! SUPPORT. Tests: words written out from spec/30_encoding.md R87, vectors of spec/95_test_vectors.md (each named in its
comment), the WellFormed smoke tests, and for every statement with hypotheses a state that meets them. -/

namespace Sys2Proof.Tests

open Sys2Proof.Machine

/-! ### WellFormed: an ill-formed term for each check -/

theorem test_shl_count_32_refused : Instr.wellFormed (.shl .r0 32) = false := by decide
theorem test_shr_count_32_refused : Instr.wellFormed (.shr .r0 32) = false := by decide
theorem test_shl_count_31_admitted : Instr.wellFormed (.shl .r0 31) = true := by decide
theorem test_jmp_2048_refused : Instr.wellFormed (.jmp 0x0800) = false := by decide
theorem test_jz_2048_refused : Instr.wellFormed (.jz 0x0800) = false := by decide
theorem test_jnz_2048_refused : Instr.wellFormed (.jnz 0x0800) = false := by decide
theorem test_jn_2048_refused : Instr.wellFormed (.jn 0x0800) = false := by decide
theorem test_jn_2047_admitted : Instr.wellFormed (.jn 0x07FF) = true := by decide

/-! ### Decoding: one word for each constructor, bit by bit from the patterns of R87 -/

theorem test_decode_nop : decodeTableWord 16 0b00000_000_000_00000 = some .nop := by decide
theorem test_decode_load : decodeTableWord 32 0b1111111100000000_00001_011_000_00000 = some (.load .r3 0xFF00) := by decide
theorem test_decode_mov : decodeTableWord 16 0b00010_111_011_00000 = some (.mov .r7 .r3) := by decide
theorem test_decode_add : decodeTableWord 16 0b00011_001_010_00000 = some (.add .r1 .r2) := by decide
theorem test_decode_sub : decodeTableWord 16 0b00100_010_011_00000 = some (.sub .r2 .r3) := by decide
theorem test_decode_and : decodeTableWord 16 0b00101_000_010_00000 = some (.and .r0 .r2) := by decide
theorem test_decode_or : decodeTableWord 16 0b00110_100_101_00000 = some (.or .r4 .r5) := by decide
theorem test_decode_xor : decodeTableWord 16 0b00111_110_001_00000 = some (.xor .r6 .r1) := by decide
theorem test_decode_not : decodeTableWord 16 0b01000_001_000_00000 = some (.not .r1) := by decide
theorem test_decode_shl : decodeTableWord 16 0b01001_111_000_11111 = some (.shl .r7 31) := by decide
theorem test_decode_shr : decodeTableWord 16 0b01010_010_000_01000 = some (.shr .r2 8) := by decide
theorem test_decode_cmp : decodeTableWord 16 0b01011_010_011_00000 = some (.cmp .r2 .r3) := by decide
theorem test_decode_jmp : decodeTableWord 16 0b01100_00001100100 = some (.jmp 100) := by decide
theorem test_decode_jz : decodeTableWord 16 0b01101_11111111111 = some (.jz 0x07FF) := by decide
theorem test_decode_jnz : decodeTableWord 16 0b01110_00100000100 = some (.jnz 0x0104) := by decide
theorem test_decode_jn : decodeTableWord 16 0b01111_00100001100 = some (.jn 0x010C) := by decide
theorem test_decode_ldr : decodeTableWord 16 0b10000_011_010_00000 = some (.ldr .r3 .r2) := by decide
theorem test_decode_str : decodeTableWord 16 0b10001_001_000_00000 = some (.str .r1 .r0) := by decide
theorem test_decode_push : decodeTableWord 16 0b10010_111_000_00000 = some (.push .r7) := by decide
theorem test_decode_pop : decodeTableWord 16 0b10011_001_000_00000 = some (.pop .r1) := by decide
theorem test_decode_call : decodeTableWord 32 0b0000000100001110_10100_000_000_00000 = some (.call 0x010E) := by decide
theorem test_decode_ret : decodeTableWord 16 0b10101_000_000_00000 = some .ret := by decide
theorem test_decode_halt : decodeTableWord 16 0b10110_000_000_00000 = some .halt := by decide

/-! V270 to V284: what is no instruction, under the strict and the lenient reading. -/

theorem test_v270_illegal : decodeFirst true 0xB800 = .error .illegalOpcode := by decide
theorem test_v271_illegal_lenient : decodeFirst false 0xFFFF = .error .illegalOpcode := by decide
theorem test_v275_reserved : decodeFirst true 0x1801 = .error .reservedEncoding := by decide
theorem test_v275_lenient : decodeFirst false 0x1801 = .ok (.complete (.add .r0 .r0)) := by decide
theorem test_v278_lenient : decodeFirst false 0x4821 = .ok (.complete (.shl .r0 1)) := by decide
theorem test_v280_reserved : decodeFirst true 0xA100 = .error .reservedEncoding := by decide
theorem test_load_needs_second_word : decodeBytes [0x00, 0x08, 0xE8] = .error .truncated := by decide

/-- V2, R51: LOAD R0, 1000 in memory. -/
theorem test_v2_bytes : encodeBytes (.load .r0 1000) = [0x00, 0x08, 0xE8, 0x03] := by decide

/-! ### Single steps: vectors of spec/95_test_vectors.md -/

/-- The launch of the vectors: pc = 0x0100, sp = 0xFFFE, and the registers and flags given. -/
def vectorState (r0 r1 : Word) (flags : Word) : State :=
  { State.reset with
    pc := 0x0100, sp := 0xFFFE, flags := Flags.ofWord flags
    regs := { State.reset.regs with r0 := r0, r1 := r1 } }

/-- The step answers a next state of which `p` holds. -/
def stepGives (s : State) (p : State → Bool) : Bool :=
  match step s with
  | .next t => p t
  | .fault _ => false
  | .refused _ => false

/-- The step of the instruction word `w` from the vector state answers a next state of which `p` holds. -/
def runs (r0 r1 flags : Word) (w : Nat) (p : State → Bool) : Bool := stepGives ((vectorState r0 r1 flags).withFetchWord 32 w) p

/-- V100: NOP. -/
theorem test_nop : runs 1 2 7 0x0000 (fun t => t.pc == 0x0102 && t.flags.word == 7) = true := by decide
/-- V101: LOAD R0, 1000; N stays. -/
theorem test_load : runs 0xAAAA 0 2 0x03E80800 (fun t => t.reg .r0 == 0x03E8 && t.pc == 0x0104 && t.flags.word == 2) = true := by
  decide
/-- V105: MOV R1, R0; Z stays. -/
theorem test_mov : runs 0x1234 0xFFFF 1 0x1100 (fun t => t.reg .r1 == 0x1234 && t.reg .r0 == 0x1234 && t.flags.word == 1) = true := by
  decide
/-- V122: 7FFF + 0001. -/
theorem test_add_overflow : runs 0x7FFF 0x0001 0 0x1820 (fun t => t.reg .r0 == 0x8000 && t.flags.word == 0b110) = true := by decide
/-- V124: FFFF + 0001: a carry out is no overflow. -/
theorem test_add_carry : runs 0xFFFF 0x0001 4 0x1820 (fun t => t.reg .r0 == 0x0000 && t.flags.word == 0b001) = true := by decide
/-- V134: 8000 - 0001. -/
theorem test_sub_overflow : runs 0x8000 0x0001 0 0x2020 (fun t => t.reg .r0 == 0x7FFF && t.flags.word == 0b100) = true := by decide
/-- V133: 0000 - 0001: the borrow is not recorded. -/
theorem test_sub_borrow : runs 0x0000 0x0001 0 0x2020 (fun t => t.reg .r0 == 0xFFFF && t.flags.word == 0b010) = true := by decide
/-- V135: CMP 7FFF, FFFF; the registers stay. -/
theorem test_cmp : runs 0x7FFF 0xFFFF 0 0x5820 (fun t => t.reg .r0 == 0x7FFF && t.flags.word == 0b110) = true := by decide
/-- V152: 8001 AND 8000; a prior O is written to 0 (D11). -/
theorem test_and : runs 0x8001 0x8000 4 0x2820 (fun t => t.reg .r0 == 0x8000 && t.flags.word == 0b010) = true := by decide
/-- V154: 1234 OR 00FF. -/
theorem test_or : runs 0x1234 0x00FF 0 0x3020 (fun t => t.reg .r0 == 0x12FF && t.flags.word == 0) = true := by decide
/-- V161: FFFF XOR FFFF. -/
theorem test_xor : runs 0xFFFF 0xFFFF 0 0x3820 (fun t => t.reg .r0 == 0x0000 && t.flags.word == 0b001) = true := by decide
/-- V166: NOT 7FFF. -/
theorem test_not : runs 0x7FFF 0 0 0x4000 (fun t => t.reg .r0 == 0x8000 && t.flags.word == 0b010) = true := by decide
/-- V172: 4000 << 1: O stays 0 although the sign changed. -/
theorem test_shl : runs 0x4000 0 4 0x4801 (fun t => t.reg .r0 == 0x8000 && t.flags.word == 0b010) = true := by decide
/-- V177: FFFF << 16 (D20). -/
theorem test_shl_16 : runs 0xFFFF 0 0 0x4810 (fun t => t.reg .r0 == 0x0000 && t.flags.word == 0b001) = true := by decide
/-- V181: 8000 >> 1: zeros shifted in. -/
theorem test_shr : runs 0x8000 0 0 0x5001 (fun t => t.reg .r0 == 0x4000 && t.flags.word == 0) = true := by decide
/-- V187: 8000 >> 0: the value stays and the flags are written. -/
theorem test_shr_0 : runs 0x8000 0 1 0x5000 (fun t => t.reg .r0 == 0x8000 && t.flags.word == 0b010) = true := by decide
/-- V202: JMP 0x7FF. -/
theorem test_jmp : runs 0 0 7 0x67FF (fun t => t.pc == 0x07FF && t.flags.word == 7) = true := by decide
/-- V204: JZ taken. -/
theorem test_jz_taken : runs 0 0 1 0x6FFF (fun t => t.pc == 0x07FF) = true := by decide
/-- V205: JZ not taken. -/
theorem test_jz_not_taken : runs 0 0 6 0x6FFF (fun t => t.pc == 0x0102) = true := by decide
/-- V206: JNZ taken. -/
theorem test_jnz_taken : runs 0 0 0 0x7000 (fun t => t.pc == 0x0000) = true := by decide
/-- V207: JNZ not taken. -/
theorem test_jnz_not_taken : runs 0 0 1 0x7000 (fun t => t.pc == 0x0102) = true := by decide
/-- V208: JN taken. -/
theorem test_jn_taken : runs 0 0 2 0x7904 (fun t => t.pc == 0x0104) = true := by decide
/-- V209: JN not taken: O is not consulted. -/
theorem test_jn_not_taken : runs 0 0 4 0x7904 (fun t => t.pc == 0x0102) = true := by decide
/-- V110, with the word across the top of memory. -/
theorem test_ldr_wraps :
    stepGives ({ vectorState 0 0xFFFF 0 with mem := [(0, 0x22), (0x0100, 0x20), (0x0101, 0x80), (0xFFFF, 0x11)] })
      (fun t => t.reg .r0 == 0x2211) = true := by decide
/-- V114: STR across the top of memory. -/
theorem test_str_wraps : runs 0xFFFF 0xABCD 0 0x8820 (fun t => t.readByte 0xFFFF == 0xCD && t.readByte 0x0000 == 0xAB) = true := by
  decide
/-- V240: PUSH R0. -/
theorem test_push : runs 0x1234 0 0 0x9000
    (fun t => t.sp == 0xFFFC && t.readByte 0xFFFC == 0x34 && t.readByte 0xFFFD == 0x12 && t.pc == 0x0102) = true := by decide
/-- V246: POP R0 of the word at FFFE; sp wraps. -/
theorem test_pop :
    stepGives ({ vectorState 0 0 1 with mem := [(0x0101, 0x98), (0xFFFE, 0x77), (0xFFFF, 0x76)] })
      (fun t => t.reg .r0 == 0x7677 && t.sp == 0x0000 && t.flags.word == 1) = true := by decide
/-- V220: CALL 0x010E at 0x0108. -/
theorem test_call :
    stepGives ({ vectorState 0 0 0 with pc := 0x0108 }.withFetchWord 32 0x010EA000)
      (fun t => t.pc == 0x010E && t.sp == 0xFFFC && t.readByte 0xFFFC == 0x0C && t.readByte 0xFFFD == 0x01) = true := by decide
/-- V224: CALL whose push overwrites its own second word goes to the word fetched. -/
theorem test_call_overlap :
    stepGives ({ vectorState 0 0 0 with sp := 0x0104 }.withFetchWord 32 0x0300A000)
      (fun t => t.pc == 0x0300 && t.sp == 0x0102 && t.readByte 0x0102 == 0x04 && t.readByte 0x0103 == 0x01) = true := by decide
/-- V226: RET with sp = FFFE. -/
theorem test_ret :
    stepGives ({ vectorState 0 0 0 with mem := [(0x0101, 0xA8), (0xFFFF, 0x09)] })
      (fun t => t.pc == 0x0900 && t.sp == 0x0000) = true := by decide
/-- V260: HALT. -/
theorem test_halt : runs 0 0 6 0xB000 (fun t => t.halted && t.pc == 0x0102 && t.flags.word == 6) = true := by decide
/-- V291: LOAD at FFFE with its second word at 0000. -/
theorem test_fetch_wraps :
    stepGives ({ vectorState 0 0 0 with pc := 0xFFFE, mem := [(0, 0x34), (1, 0x12), (0xFFFF, 0x08)] })
      (fun t => t.reg .r0 == 0x1234 && t.pc == 0x0002) = true := by decide
/-- V292: HALT at an odd address. -/
theorem test_fetch_odd : stepGives ({ vectorState 0 0 0 with pc := 0x0101, mem := [(0x0102, 0xB0)] })
    (fun t => t.halted && t.pc == 0x0103) = true := by decide

/-- R180: a halted machine makes no step. -/
theorem test_halted_no_step : (match step { State.reset with halted := true } with
    | .refused r => decide (r = .processorHalted) | .next _ => false | .fault _ => false) = true := by decide

/-- V282: HALT with unused bits, at 0x0100. -/
theorem test_reserved_fault : (match step ((vectorState 0 0 0).withFetchWord 16 0xB0FF) with
    | .fault f => decide (f = .reservedEncoding 0x0100 0xB0FF) | .next _ => false | .refused _ => false) = true := by decide

/-! ### The assembler -/

/-- Example 4.3.1 of the manual, with comments and a label. -/
theorem test_assemble_loop :
    (Assembler.assemble 0x0100
      "  LOAD R0, 10 ; R0 <- 10 (counter)\nloop:\n  LOAD R1, #0x1\n  SUB R0, R1\n\n  JNZ loop\n  HALT").map
        Assembler.programWords
      = .ok [0x0800, 10, 0x0900, 1, 0x2020, 0x7104, 0xB000] := by decide

/-- R97: a jump beyond 2047 is rejected. -/
theorem test_assemble_far_jump : Assembler.assemble 0 "JMP 2048" = .error .operandOutOfRange := by decide

/-- A label behind the top of memory has the unreduced value, and its use is rejected (log 28). -/
theorem test_assemble_label_past_top :
    Assembler.labelValues 0xFFFE [.instruction "NOP" [], .label "end"] = [("end", 65536)] ∧
      Assembler.assemble 0xFFFE "CALL end\nend:\nHALT" = .error .operandOutOfRange := by decide

/-- A label with no instruction after it names the address behind the last word, and SP may be its name (log 23). -/
theorem test_assemble_last_label : Assembler.assemble 0x0100 "JMP SP\nSP:" = .ok [.jmp 0x0102] := by decide

/-- A character constant and an expression are no operands (log 23). -/
theorem test_assemble_no_expression :
    Assembler.assemble 0 "LOAD R0, 'A'" = .error .badLine ∧ Assembler.assemble 0 "JMP 2+2" = .error .badLine := by decide

/-- R94: labels are case-sensitive. -/
theorem test_assemble_case : Assembler.assemble 0 "Loop:\nJMP loop" = .error .undefinedLabel := by decide

/-! ### For every statement with hypotheses, a state and operands that meet them -/

/-- A running machine with the word `w` at pc: the hypotheses of `EncodedAs i w` and `EncodedInTwoAs i w`. -/
def holdsAtPc (w : Nat) : Bool :=
  let s := (vectorState 0 0 0).withFetchWord 32 w
  !s.halted && s.readWord s.pc == BitVec.ofNat 16 w

theorem witness_encoded_nop : holdsAtPc 0x0000 = true := by decide
theorem witness_encoded_load : holdsAtPc (0x0800 + Reg.r7.number * 256) = true := by decide
theorem witness_encoded_mov : holdsAtPc (0x1000 + Reg.r7.number * 256 + Reg.r3.number * 32) = true := by decide
theorem witness_encoded_add : holdsAtPc (0x1800 + Reg.r1.number * 256 + Reg.r2.number * 32) = true := by decide
theorem witness_encoded_sub : holdsAtPc (0x2000 + Reg.r0.number * 256 + Reg.r7.number * 32) = true := by decide
theorem witness_encoded_and : holdsAtPc (0x2800 + Reg.r4.number * 256 + Reg.r4.number * 32) = true := by decide
theorem witness_encoded_or : holdsAtPc (0x3000 + Reg.r2.number * 256 + Reg.r2.number * 32) = true := by decide
theorem witness_encoded_xor : holdsAtPc (0x3800 + Reg.r3.number * 256 + Reg.r3.number * 32) = true := by decide
theorem witness_encoded_not : holdsAtPc (0x4000 + Reg.r5.number * 256) = true := by decide
theorem witness_encoded_shl : 31 ≤ 31 ∧ holdsAtPc (0x4800 + Reg.r7.number * 256 + 31) = true := by decide
theorem witness_encoded_shr : 31 ≤ 31 ∧ holdsAtPc (0x5000 + Reg.r0.number * 256 + 31) = true := by decide
theorem witness_encoded_cmp : holdsAtPc (0x5800 + Reg.r2.number * 256 + Reg.r3.number * 32) = true := by decide
theorem witness_encoded_jmp : (0x07FF : Word).toNat ≤ 2047 ∧ holdsAtPc (0x6000 + (0x07FF : Word).toNat) = true := by decide
theorem witness_encoded_jz : (0x07FF : Word).toNat ≤ 2047 ∧ holdsAtPc (0x6800 + (0x07FF : Word).toNat) = true := by decide
theorem witness_encoded_jnz : (0x0000 : Word).toNat ≤ 2047 ∧ holdsAtPc (0x7000 + (0x0000 : Word).toNat) = true := by decide
theorem witness_encoded_jn : (0x07FF : Word).toNat ≤ 2047 ∧ holdsAtPc (0x7800 + (0x07FF : Word).toNat) = true := by decide
theorem witness_encoded_ldr : holdsAtPc (0x8000 + Reg.r1.number * 256 + Reg.r1.number * 32) = true := by decide
theorem witness_encoded_str : holdsAtPc (0x8800 + Reg.r1.number * 256 + Reg.r0.number * 32) = true := by decide
theorem witness_encoded_push : holdsAtPc (0x9000 + Reg.r7.number * 256) = true := by decide
theorem witness_encoded_pop : holdsAtPc (0x9800 + Reg.r7.number * 256) = true := by decide
theorem witness_encoded_call : holdsAtPc 0xA000 = true := by decide
theorem witness_encoded_ret : holdsAtPc 0xA800 = true := by decide
theorem witness_encoded_halt : holdsAtPc 0xB000 = true := by decide

/-- ShlMultipliesByPowerOfTwo at the last count below 16: V176, FFFF << 15. -/
theorem witness_shl_15 : shiftLeft 0xFFFF 15 = 0x8000 ∧ shiftLeft 0xFFFF 16 = 0 := by decide

/-- ShrDividesByPowerOfTwo where its two clauses meet: 8000 >> 15 and 8000 >> 16. -/
theorem witness_shr_15 : shiftRight 0x8000 15 = 0x0001 ∧ shiftRight 0x8000 16 = 0 := by decide

/-- JzGoesWhereZeroIsSet, JnzGoesWhereZeroIsClear, JnGoesWhereNegativeIsSet: a state for each value of the flag. -/
theorem witness_jump_flags :
    (vectorState 0 0 1).flags.z = true ∧ (vectorState 0 0 6).flags.z = false ∧ (vectorState 0 0 2).flags.n = true ∧
      (vectorState 0 0 5).flags.n = false := by decide

/-- LaunchStatesAreTheRunningStates, both directions: the launch of the vectors runs, and is a launch. -/
theorem witness_launch : (vectorState 1 2 7).halted = false ∧ ∃ l : Launch, vectorState 1 2 7 = State.launch l :=
  ⟨rfl, { Launch.named with
    pcReset := 0x0100, spReset := 0xFFFE, flags := Flags.ofWord 7, regs := { Launch.named.regs with r0 := 1, r1 := 2 } }, rfl⟩

/-- CanonicalMemoriesEqualWhenReadsAgree. -/
theorem witness_canonical_memories :
    Memory.wf [(0x0000, 0x01), (0xFFFF, 0xFF)] ∧
      ∀ a, Memory.readByte [(0x0000, 0x01), (0xFFFF, 0xFF)] a = Memory.readByte [(0x0000, 0x01), (0xFFFF, 0xFF)] a :=
  ⟨by decide, fun _ => rfl⟩

/-- RetReturnsBehindTheCall: the state that CALL left, with pc and R0 changed by what ran in between. -/
theorem witness_ret_behind_call :
    ∃ t v, exec (.call 0x010E) (vectorState 0 0 0) = .next t ∧ v = (t.setPc 0x0300).setReg .r0 7 ∧ v.sp = t.sp ∧
      v.readByte t.sp = t.readByte t.sp ∧ v.readByte (t.sp + 1) = t.readByte (t.sp + 1) :=
  ⟨_, _, rfl, rfl, rfl, rfl, rfl⟩

/-- StoreIsSeenByTheNextFetch: STR R0, R1 at 0x0100 with R0 = 0x0102 and HALT's word in R1. -/
theorem witness_store_next :
    ∃ s', fetch ((vectorState 0x0102 0xB000 0).withFetchWord 32 0x8820) = .next (.str .r0 .r1, s') ∧
      ((vectorState 0x0102 0xB000 0).withFetchWord 32 0x8820).reg .r0 = 0x0100 + 2 ∧
      decodeFirst true (((vectorState 0x0102 0xB000 0).withFetchWord 32 0x8820).reg .r1) = .ok (.complete .halt) :=
  ⟨_, rfl, by decide, by decide⟩

/-- DecoderFollowsTheOpcodeTable: a word that matches a row under both masks, and one that matches under 0xF800 alone. -/
theorem witness_opcode_rows :
    ⟨"ADD", 1, 0x1800, 0xF81F⟩ ∈ opcodeRows ∧ (0x1FE0 : Word) &&& 0xF81F = 0x1800 ∧ (0x1801 : Word) &&& 0xF800 = 0x1800 ∧
      (0x1801 : Word) &&& 0xF81F ≠ 0x1800 ∧ decodeFirst true 0x1FE0 = .ok (.complete (.add .r7 .r7)) :=
  ⟨by simp [opcodeRows], by decide, by decide, by decide, by decide⟩

/-- DecodeOfEncode: operands at the ends of their ranges. -/
theorem witness_well_formed :
    Instr.wellFormed (.shr .r7 31) = true ∧ Instr.wellFormed (.jmp 0x07FF) = true ∧ Instr.wellFormed (.load .r7 0xFFFF) = true ∧
      Instr.wellFormed (.call 0xFFFF) = true := by decide

/-- EncodeOfDecode: the bytes of LOAD R7, 0xFFFF with one byte after them. -/
theorem witness_decode_bytes : decodeBytesWith true [0x00, 0x0F, 0xFF, 0xFF, 0x55] = .ok (.load .r7 0xFFFF, [0x55]) := by decide

/-- StepRunsTheDecodedInstruction: CALL 0x010E at 0x0100. -/
theorem witness_step_decodes :
    ((vectorState 0 0 0).withFetchWord 32 0x010EA000).halted = false ∧
      decodeBytes ((vectorState 0 0 0).withFetchWord 32 0x010EA000).bytesAtPc = .ok (.call 0x010E, []) := by decide

/-- A program across the top of memory: LOAD R0, 5 at 0xFFFC, then HALT at 0x0000, where pc is. -/
def loadedState : State :=
  { State.reset with mem := Assembler.loadProgram [] 0xFFFC ([.load .r0 5] ++ .halt :: [.nop]), pc := 0x0000 }

/-- LoadedProgramRuns. -/
theorem witness_loaded_program :
    Instr.wellFormed .halt = true ∧ (Assembler.programWords ([.load .r0 5] ++ .halt :: [.nop])).length ≤ 32768 ∧
      loadedState.halted = false ∧ loadedState.mem = Assembler.loadProgram [] 0xFFFC ([.load .r0 5] ++ .halt :: [.nop]) ∧
      loadedState.pc = 0xFFFC + BitVec.ofNat 16 (2 * (Assembler.programWords [.load .r0 5]).length) := by decide

/-- StepEndsOneOfThreeWays: a halted state, and running states with an instruction and with none at pc. -/
theorem witness_step_ends :
    (State.reset.setHalted true).halted = true ∧ State.reset.halted = false ∧
      decodeFirst true (State.reset.readWord State.reset.pc) = .ok (.complete .nop) ∧
      (State.reset.withFetchWord 16 0xB800).halted = false ∧
      decodeFirst true ((State.reset.withFetchWord 16 0xB800).readWord 0) = .error .illegalOpcode := by decide

/-- IllegalOpcodeExactlyFromB800: the first and the last such word raise the fault. -/
theorem witness_illegal_opcode :
    step ((vectorState 0 0 0).withFetchWord 16 0xB800) = .fault (.illegalOpcode 0x0100 0xB800) ∧
      step ((vectorState 0 0 0).withFetchWord 16 0xFFFF) = .fault (.illegalOpcode 0x0100 0xFFFF) := ⟨rfl, rfl⟩

/-- ReservedEncodingExactlyOnUnusedBits: the last word below 0xB800, and NOP with one unused bit. -/
theorem witness_reserved_encoding :
    step ((vectorState 0 0 0).withFetchWord 16 0xB7FF) = .fault (.reservedEncoding 0x0100 0xB7FF) ∧
      step ((vectorState 0 0 0).withFetchWord 16 0x0001) = .fault (.reservedEncoding 0x0100 0x0001) := ⟨rfl, rfl⟩

/-- PcAfterEveryStep. -/
theorem witness_pc_after :
    ∃ s', fetch ((vectorState 0 0 0).withFetchWord 32 0x010EA000) = .next (.call 0x010E, s') := ⟨_, rfl⟩

/-- JumpsReachOnlyBelow2048: JMP 0x07FF, and JZ taken and not taken. -/
theorem witness_jumps :
    (∃ s' t, fetch ((vectorState 0 0 0).withFetchWord 32 0x67FF) = .next (.jmp 0x07FF, s') ∧
      step ((vectorState 0 0 0).withFetchWord 32 0x67FF) = .next t) ∧
    ∀ f ∈ [(0 : Word), 1], ∃ s' t, fetch ((vectorState 0 0 f).withFetchWord 32 0x6FFF) = .next (.jz 0x07FF, s') ∧
      step ((vectorState 0 0 f).withFetchWord 32 0x6FFF) = .next t := by
  refine ⟨⟨_, _, rfl, rfl⟩, fun f hf => ?_⟩
  simp only [List.mem_cons, List.not_mem_nil, or_false] at hf
  rcases hf with rfl | rfl <;> exact ⟨_, _, rfl, rfl⟩

/-- FlagWritersAreExactlyNine and WrittenFlagsAreNotSticky. -/
theorem witness_flag_writers :
    writesFlags (.pop .r0) = false ∧ (∃ t, exec (.pop .r0) State.reset = .next t) ∧ writesFlags (.cmp .r0 .r1) = true :=
  ⟨rfl, ⟨_, rfl⟩, rfl⟩

/-- OnlyTheDestinationIsWritten, StackPointerMovesByTwo, MemoryChangesOnlyWhereStored: an instruction that stores nothing
and one that stores. -/
theorem witness_exec_frames :
    (∃ t, exec (.add .r0 .r1) (vectorState 1 2 0) = .next t) ∧ destination (.add .r0 .r1) ≠ some .r1 ∧
      storeAddress (vectorState 1 2 0) (.add .r0 .r1) = none ∧ (∃ t, exec (.push .r0) (vectorState 1 2 0) = .next t) ∧
      destination (.push .r0) ≠ some .r0 ∧ storeAddress (vectorState 1 2 0) (.push .r0) = some 0xFFFC :=
  ⟨⟨_, rfl⟩, by decide, rfl, ⟨_, rfl⟩, by decide, by decide⟩

/-- OnlyHaltHalts, StepKeepsReservedFlags and StepKeepsMemoryCanonical: HALT at pc, in a canonical memory. -/
theorem witness_step_next :
    ((vectorState 0 0 0).withFetchWord 32 0xB000).mem.wf ∧
      ∃ s' t, fetch ((vectorState 0 0 0).withFetchWord 32 0xB000) = .next (.halt, s') ∧
        step ((vectorState 0 0 0).withFetchWord 32 0xB000) = .next t := ⟨by decide, _, _, rfl, rfl⟩

/-- OverflowIsNeverObserved: two states that differ in O and in the reserved bits, and a step and an end of the first. -/
theorem witness_agree_but_overflow :
    AgreeButOverflow ((vectorState 0 0 0).withFetchWord 32 0xB000) ((vectorState 0 0 0xFFFC).withFetchWord 32 0xB000) ∧
      ∃ t, Completed ((vectorState 0 0 0).withFetchWord 32 0xB000) t :=
  ⟨⟨rfl, rfl, rfl, rfl, rfl, rfl, rfl⟩, _, .tail (.refl _) rfl, rfl⟩

/-- OverflowIsNeverObserved, its last clause: a run that faults. -/
theorem witness_faulted : Faulted ((vectorState 0 0 0).withFetchWord 16 0xFFFF) (.illegalOpcode 0x0100 0xFFFF) :=
  ⟨_, .refl _, rfl⟩

/-- RunCompletesExactlyAtHalt and CompletedRunIsUniqueAndFaultFree: a run from a running state that completes. -/
theorem witness_run_completes :
    ((vectorState 0 0 0).withFetchWord 32 0xB000).halted = false ∧
      ∃ t, Completed ((vectorState 0 0 0).withFetchWord 32 0xB000) t := ⟨rfl, _, .tail (.refl _) rfl, rfl⟩

/-- ParametersOfTheStep, its second clause: the last word of ADD's OP, every unused bit set, runs as ADD R7, R7. -/
theorem witness_lenient_step :
    ⟨"ADD", 1, 0x1800, 0xF81F⟩ ∈ opcodeRows ∧ ((vectorState 0 0 0).withFetchWord 16 0x1FFF).halted = false ∧
      ((vectorState 0 0 0).withFetchWord 16 0x1FFF).readWord 0x0100 &&& 0xF800 = 0x1800 ∧
      stepUnder { Config.parameters with strictUnusedFields := false } ((vectorState 0 0 0).withFetchWord 16 0x1FFF) =
        exec (.add .r7 .r7) (((vectorState 0 0 0).withFetchWord 16 0x1FFF).setPc 0x0102) :=
  ⟨by simp [opcodeRows], by decide, by decide, rfl⟩

/-- A run under STRICT_UNUSED_FIELDS = false: HALT with unused bits completes it (R89). -/
theorem witness_lenient_run :
    ∃ t, CompletedBy (stepUnder { Config.parameters with strictUnusedFields := false })
      ((vectorState 0 0 0).withFetchWord 16 0xB0FF) t := ⟨_, .tail (.refl _) rfl, rfl⟩

/-- A RAM of 32 KB from address 0. -/
def halfRam : Parameters := { Config.parameters with memMap := fun a => decide (a.toNat < 0x8000) }

/-- ParametersOfTheStep, a refusal at a byte of data: STR across the end of the RAM. The byte before it is RAM. -/
theorem witness_mem_map_data :
    ((vectorState 0x7FFF 0 0).withFetchWord 32 0x8820).halted = false ∧
      accessedBytes true ((vectorState 0x7FFF 0 0).withFetchWord 32 0x8820) = [0x0100, 0x0101, 0x7FFF] ++ 0x8000 :: [] ∧
      (∀ b ∈ [(0x0100 : Word), 0x0101, 0x7FFF], halfRam.memMap b = true) ∧ halfRam.memMap 0x8000 = false :=
  ⟨rfl, rfl, by simp [halfRam], by simp [halfRam]⟩

/-- ParametersOfTheStep, refusals at a byte of word 2 and of word 1: CALL at 0x7FFE, and pc at 0x8000. -/
theorem witness_mem_map_fetch :
    accessedBytes true ({ vectorState 0 0 0 with pc := 0x7FFE }.withFetchWord 32 0x0100A000) =
        [0x7FFE, 0x7FFF] ++ 0x8000 :: [0x8001, 0xFFFC, 0xFFFD] ∧
      accessedBytes true { vectorState 0 0 0 with pc := 0x8000 } = [] ++ 0x8000 :: [0x8001] := by decide

/-- ParametersOfTheStep, a step whose every byte is RAM: STR to the last word of the RAM; and a halted machine. -/
theorem witness_mem_map_inside :
    ((vectorState 0x7FFE 0 0).withFetchWord 32 0x8820).halted = false ∧
      (∀ a ∈ accessedBytes true ((vectorState 0x7FFE 0 0).withFetchWord 32 0x8820), halfRam.memMap a = true) ∧
      (State.reset.setHalted true).halted = true := by
  have h : accessedBytes true ((vectorState 0x7FFE 0 0).withFetchWord 32 0x8820) = [0x0100, 0x0101, 0x7FFE, 0x7FFF] := rfl
  exact ⟨rfl, by rw [h]; simp [halfRam], rfl⟩

/-- STR across the end of a RAM of 32 KB is refused at the first byte outside it (log 14). -/
theorem test_mem_map :
    stepUnder halfRam ((vectorState 0x7FFF 0 0).withFetchWord 32 0x8820) = .refused (.outsideMemMap 0x8000) := rfl

/-- AssembledProgramIsWellFormed: a jump and a shift at the ends of their ranges. -/
theorem witness_assembled :
    ∃ p, Assembler.assemble 0 "JMP 0x7FF\nSHL R0, #31" = .ok p ∧ Instr.jmp 0x07FF ∈ p ∧ Instr.shl .r0 31 ∈ p :=
  ⟨[.jmp 0x07FF, .shl .r0 31], by decide, by decide, by decide⟩

/-- AssembledProgramIsWellFormed, its ranges where the clauses meet, and a rejected statement in a program. -/
theorem witness_assembler_ranges :
    Assembler.buildAddress "JN" 2047 = .ok (.jn 0x07FF) ∧ Assembler.buildAddress "JN" 2048 = .error .operandOutOfRange ∧
      Assembler.buildImmediate "SHR" .r1 31 = .ok (.shr .r1 31) ∧
      Assembler.buildImmediate "SHR" .r1 32 = .error .operandOutOfRange ∧
      Assembler.buildAddress "CALL" 65535 = .ok (.call 0xFFFF) ∧
      Assembler.buildAddress "CALL" 65536 = .error .operandOutOfRange ∧
      Assembler.buildImmediate "LOAD" .r1 65535 = .ok (.load .r1 0xFFFF) ∧
      Assembler.buildImmediate "LOAD" .r1 65536 = .error .operandOutOfRange ∧
      Assembler.build [("loop", 260)] "JNZ" [.label "loop"] = .ok (.jnz 0x0104) ∧
      Assembler.Statement.instruction "JMP" [.number 2048] ∈ [Assembler.Statement.instruction "JMP" [.number 2048]] ∧
      Assembler.build [] "JMP" [.number 2048] = .error .operandOutOfRange := by decide

/-- LabelIsTheNextInstructionsAddress: a label behind a two-word instruction. -/
theorem witness_label :
    Assembler.buildAll [] [.instruction "LOAD" [.register .r0, .number 10]] = .ok [.load .r0 10] := by decide

end Sys2Proof.Tests
end

/-! PROOFS. Which instructions write the flags (spec/10_state.md R30): every meaning either leaves FLAGS whole or writes the flags
of a result that no flag enters. -/

namespace Sys2Proof.Machine

/-- A conditional jump, taken or not, writes no flag (R150). -/
@[simp] theorem jumpIf_flags (c : Bool) (a : Word) (s : State) : (jumpIf c a s).flags = s.flags := by
  rw [jumpIf_eq, State.setPc_flags]

/-- The frame of FLAGS: an instruction outside the list of R30 leaves all of it, the reserved bits too. -/
theorem exec_flags_of_not_writesFlags {i : Instr} {s t : State} (h : exec i s = .next t)
    (hi : writesFlags i = false) : t.flags = s.flags := by
  cases i with
  | add | sub | and | or | xor | not | shl | shr | cmp => cases hi
  | jz | jnz | jn =>
    obtain rfl := Host.Outcome.next.inj h
    exact jumpIf_flags _ _ _
  | nop | load | mov | jmp | ldr | str | push | pop | call | ret | halt =>
    obtain rfl := Host.Outcome.next.inj h
    rfl

/-- A flag writer, said once: it answers from every state, and the result `r` and the overflow `o` whose flags it writes are
fixed by the rest of the state, whatever FLAGS `f` holds before (R29, R30). -/
theorem exec_setFlags_of_writesFlags {i : Instr} (hi : writesFlags i = true) (s : State) :
    ∃ r o, ∀ f, ∃ t, exec i (s.setFlags f) = .next t ∧ t.flags = f.result r o := by
  cases i with
  | add rd rs =>
    exact ⟨s.reg rd + s.reg rs, addOverflow (s.reg rd) (s.reg rs) (s.reg rd + s.reg rs), fun _ => ⟨_, rfl, rfl⟩⟩
  | sub rd rs | cmp rd rs =>
    exact ⟨s.reg rd - s.reg rs, subOverflow (s.reg rd) (s.reg rs) (s.reg rd - s.reg rs), fun _ => ⟨_, rfl, rfl⟩⟩
  | and rd rs => exact ⟨s.reg rd &&& s.reg rs, logicalOverflow, fun _ => ⟨_, rfl, rfl⟩⟩
  | or rd rs => exact ⟨s.reg rd ||| s.reg rs, logicalOverflow, fun _ => ⟨_, rfl, rfl⟩⟩
  | xor rd rs => exact ⟨s.reg rd ^^^ s.reg rs, logicalOverflow, fun _ => ⟨_, rfl, rfl⟩⟩
  | not rd => exact ⟨~~~s.reg rd, logicalOverflow, fun _ => ⟨_, rfl, rfl⟩⟩
  | shl rd count => exact ⟨shiftLeft (s.reg rd) count, logicalOverflow, fun _ => ⟨_, rfl, rfl⟩⟩
  | shr rd count => exact ⟨shiftRight (s.reg rd) count, logicalOverflow, fun _ => ⟨_, rfl, rfl⟩⟩
  | nop | load | mov | jmp | jz | jnz | jn | ldr | str | push | pop | call | ret | halt => cases hi

/-- From every state a flag writer changes Z, once Z is set to the opposite of what it is about to write: its result does not
follow the change. -/
theorem exists_exec_setFlags_z_ne {i : Instr} (hi : writesFlags i = true) (s : State) :
    ∃ f t, exec i (s.setFlags f) = .next t ∧ t.flags.z ≠ f.z := by
  obtain ⟨r, o, hwrite⟩ := exec_setFlags_of_writesFlags hi s
  obtain ⟨t, ht, hflags⟩ := hwrite { s.flags with z := !zeroFlag r }
  refine ⟨_, t, ht, ?_⟩
  rw [hflags, Flags.result_z]
  exact Bool.self_ne_not _

/-- Settles O47: the frame of FLAGS for the other fourteen instructions, and for each of the nine a state in which Z changes. -/
theorem flagWritersAreExactlyNine : Obligations.FlagWritersAreExactlyNine := by
  refine ⟨fun _ _ _ => exec_flags_of_not_writesFlags, fun i hi => ?_⟩
  obtain ⟨f, t, ht, hz⟩ := exists_exec_setFlags_z_ne hi State.reset
  exact ⟨State.reset.setFlags f, t, ht, .inl hz⟩

end Sys2Proof.Machine


/-! PROOFS. The byte order of a word in memory (spec/20_memory.md R50, R52): what the two halves of a word are as numbers, then
what a word read and a word write are byte by byte. -/

namespace Sys2Proof.Machine

@[simp] theorem lowByte_toNat (v : Word) : (lowByte v).toNat = v.toNat % 256 := by
  rw [lowByte, BitVec.extractLsb'_toNat, Nat.shiftRight_zero]

@[simp] theorem highByte_toNat (v : Word) : (highByte v).toNat = v.toNat / 256 := by
  have hv : v.toNat / 256 < 256 := by omega
  rw [highByte, BitVec.extractLsb'_toNat, Nat.shiftRight_eq_div_pow]
  exact Nat.mod_eq_of_lt hv

theorem wordOfBytes_toNat (high low : Byte) : (wordOfBytes high low).toNat = low.toNat + 256 * high.toNat := by
  rw [wordOfBytes, BitVec.toNat_append, ← Nat.shiftLeft_add_eq_or_of_lt low.isLt, Nat.shiftLeft_eq]
  omega

/-- A word read as a number: the byte at `a` is its low half, the byte at `a + 1` its high half (R52). -/
theorem State.readWord_toNat (s : State) (a : Word) :
    (s.readWord a).toNat = (s.readByte a).toNat + 256 * (s.readByte (a + 1)).toNat :=
  wordOfBytes_toNat _ _

/-- The two addresses of a word are different, at the last address too, where the second one is 0. -/
theorem ne_add_one (a : Word) : a ≠ a + 1 := by bv_omega

@[simp] theorem State.readByte_writeWord_low (s : State) (a v : Word) : (s.writeWord a v).readByte a = lowByte v := by
  rw [State.readByte_writeWord, if_neg (ne_add_one a), if_pos rfl]

@[simp] theorem State.readByte_writeWord_high (s : State) (a v : Word) :
    (s.writeWord a v).readByte (a + 1) = highByte v := by
  rw [State.readByte_writeWord, if_pos rfl]

@[simp] theorem State.readWord_writeWord_same (s : State) (a v : Word) : (s.writeWord a v).readWord a = v :=
  Memory.readWord_writeWord_same s.mem a v

/-- A word write puts the word where it is addressed, low byte first (R50). -/
theorem State.holdsWord_writeWord (s : State) (a v : Word) : HoldsWord (s.writeWord a v) a v := by
  constructor
  · rw [State.readByte_writeWord_low, lowByte_toNat]
  · rw [State.readByte_writeWord_high, highByte_toNat]

/-- The frame of a word write: no byte but the two of the word (R53). -/
theorem State.sameMemoryBut_writeWord (s : State) (a v : Word) : SameMemoryBut a s (s.writeWord a v) :=
  fun _ => State.readByte_writeWord_other

/-- Settles O5: the number of the word read is the number its two bytes make. -/
theorem wordReadIsLittleEndian : Obligations.WordReadIsLittleEndian := State.readWord_toNat

/-- Settles O6: the two bytes written, the frame of the write, and the word read back. -/
theorem wordWriteIsLittleEndian : Obligations.WordWriteIsLittleEndian := fun s a v =>
  ⟨s.holdsWord_writeWord a v, s.sameMemoryBut_writeWord a v, s.readWord_writeWord_same a v⟩

end Sys2Proof.Machine


/-! PROOFS. The opcode table (spec/30_encoding.md R89, R90): a word's OP names at most one row, the decoder's answer for a word of
a row is the row's instruction behind the check of its unused fields, and a word of no row is no instruction. -/

namespace Sys2Proof

/-- The bits of the fields a row does not use: what its mask of the strict reading has beyond OP (R88, R90). -/
def unusedBits (row : OpcodeRow) : Word := row.mask ^^^ 0xF800

/-- The mask 0xF800 of R90 keeps OP and clears the rest. -/
theorem and_opMask_eq (w : Word) : w &&& 0xF800 = opField w ++ (0 : BitVec 11) := by
  refine BitVec.eq_of_getLsbD_eq fun i hi => ?_
  rw [BitVec.getLsbD_and, opField, BitVec.getLsbD_append]
  interval_cases i <;> simp

theorem opField_and_opMask (w : Word) : opField (w &&& 0xF800) = opField w := by
  rw [opField, BitVec.extractLsb'_and]
  exact BitVec.and_allOnes

/-- A row's mask is OP and its unused bits. -/
theorem mask_of_mem_opcodeRows : ∀ row ∈ opcodeRows,
    row.mask = 0xF800 ||| unusedBits row ∧ row.mask &&& 0xF800 = 0xF800 ∧ row.mask &&& unusedBits row = unusedBits row := by
  decide

/-- A row's pattern is zero outside OP. -/
theorem pattern_of_mem_opcodeRows : ∀ row ∈ opcodeRows,
    row.pattern &&& 0xF800 = row.pattern ∧ row.pattern &&& unusedBits row = 0 := by
  decide

/-- A word matches a row under the row's mask exactly when its OP is the row's and the row's unused bits are zero. -/
theorem and_mask_eq_pattern_iff {row : OpcodeRow} (hrow : row ∈ opcodeRows) (w : Word) :
    w &&& row.mask = row.pattern ↔ w &&& 0xF800 = row.pattern ∧ w &&& unusedBits row = 0 := by
  obtain ⟨hmask, hmaskOp, hmaskUnused⟩ := mask_of_mem_opcodeRows row hrow
  obtain ⟨hop, hunused⟩ := pattern_of_mem_opcodeRows row hrow
  constructor
  · intro h
    constructor
    · calc w &&& 0xF800 = w &&& row.mask &&& 0xF800 := by rw [BitVec.and_assoc, hmaskOp]
        _ = row.pattern := by rw [h, hop]
    · calc w &&& unusedBits row = w &&& row.mask &&& unusedBits row := by rw [BitVec.and_assoc, hmaskUnused]
        _ = 0 := by rw [h, hunused]
  · rintro ⟨hw, hzero⟩
    rw [hmask, BitVec.and_or_distrib_left, hw, hzero]
    exact BitVec.or_zero

/-- The mnemonic names the row. -/
theorem row_eq_of_mnemonic_eq {row row' : OpcodeRow} (hrow : row ∈ opcodeRows) (hrow' : row' ∈ opcodeRows)
    (h : row.mnemonic = row'.mnemonic) : row = row' := by
  have hnodup : (opcodeRows.map OpcodeRow.mnemonic).Nodup := by decide
  exact List.inj_on_of_nodup_map hnodup hrow hrow' h

theorem checkUnused_eq_ok_iff {strict : Bool} {unused w : Word} {f g : FirstWord} :
    checkUnused strict unused w f = .ok g ↔ f = g ∧ (strict = true → w &&& unused = 0) := by
  cases strict with
  | false => simp [checkUnused]
  | true => by_cases h : w &&& unused = 0#16 <;> simp [checkUnused, h]

/-- An instruction that uses all its fields, such as a jump, has nothing to check. -/
theorem checkUnused_zero (strict : Bool) (w : Word) (f : FirstWord) : checkUnused strict 0 w f = .ok f :=
  checkUnused_eq_ok_iff.mpr ⟨rfl, fun _ => BitVec.and_zero⟩

/-- A word whose OP is a row's decodes to the row's instruction, once the row's unused fields pass the check (R87, R89). -/
theorem decodeFirst_of_row {row : OpcodeRow} (hrow : row ∈ opcodeRows) {w : Word} (hw : w &&& 0xF800 = row.pattern)
    (strict : Bool) :
    ∃ f, decodeFirst strict w = checkUnused strict (unusedBits row) w f ∧
      (f.withSecond 0).mnemonic = row.mnemonic ∧ f.words = row.words := by
  have hop : opField w = opField row.pattern := by rw [← hw, opField_and_opMask]
  rw [decodeFirst, hop]
  fin_cases hrow
  -- NOP to CMP
  iterate 12 exact ⟨_, rfl, rfl, rfl⟩
  -- the four jumps, which the decoder does not check
  iterate 4 exact ⟨_, (checkUnused_zero strict w _).symm, rfl, rfl⟩
  -- LDR to HALT
  iterate 7 exact ⟨_, rfl, rfl, rfl⟩

/-- An OP from 0x17 on is no row's (R91). -/
theorem decodeFirst_of_opField_ge {strict : Bool} {w : Word} (h : 0x17 ≤ (opField w).toNat) :
    decodeFirst strict w = .error .illegalOpcode := by
  rw [decodeFirst]
  split
  case h_24 => rfl
  all_goals omega

/-- Each OP below 0x17 is a row's (R90, R91). -/
theorem exists_row_of_opField_lt {w : Word} (h : (opField w).toNat < 0x17) :
    ∃ row ∈ opcodeRows, w &&& 0xF800 = row.pattern := by
  have hrows : ∀ op : BitVec 5, op.toNat < 0x17 → ∃ row ∈ opcodeRows, op ++ (0 : BitVec 11) = row.pattern := by decide
  rw [and_opMask_eq]
  exact hrows _ h

/-- What the decoder accepts, said once: the word's OP is a row's, under the strict reading the row's unused bits are zero, and
the instruction is the row's. -/
theorem exists_row_of_decodeFirst_ok {strict : Bool} {w : Word} {f : FirstWord} (h : decodeFirst strict w = .ok f) :
    ∃ row ∈ opcodeRows, w &&& 0xF800 = row.pattern ∧ (strict = true → w &&& unusedBits row = 0) ∧
      (f.withSecond 0).mnemonic = row.mnemonic ∧ f.words = row.words := by
  have hlt : (opField w).toNat < 0x17 := by
    by_contra hge
    rw [decodeFirst_of_opField_ge (Nat.le_of_not_lt hge)] at h
    cases h
  obtain ⟨row, hrow, hw⟩ := exists_row_of_opField_lt hlt
  obtain ⟨g, hg, hname, hwords⟩ := decodeFirst_of_row hrow hw strict
  obtain ⟨rfl, hunused⟩ := checkUnused_eq_ok_iff.mp (hg ▸ h)
  exact ⟨row, hrow, hw, hunused, hname, hwords⟩

/-- A word is an instruction of a row exactly when its OP is the row's and, under the strict reading, the row's unused bits are
zero: the mnemonic leaves no other row for the decoder's answer. -/
theorem decodesTo_row_iff {row : OpcodeRow} (hrow : row ∈ opcodeRows) (strict : Bool) (w : Word) :
    DecodesTo strict w row.mnemonic row.words ↔
      w &&& 0xF800 = row.pattern ∧ (strict = true → w &&& unusedBits row = 0) := by
  constructor
  · rintro ⟨f, hf, -, hname⟩
    obtain ⟨row', hrow', hw, hunused, hname', -⟩ := exists_row_of_decodeFirst_ok hf
    obtain rfl := row_eq_of_mnemonic_eq hrow hrow' (hname.symm.trans hname')
    exact ⟨hw, hunused⟩
  · rintro ⟨hw, hunused⟩
    obtain ⟨f, hf, hname, hwords⟩ := decodeFirst_of_row hrow hw strict
    exact ⟨f, hf.trans (checkUnused_eq_ok_iff.mpr ⟨rfl, hunused⟩), hwords, hname⟩

/-- Settles O36: the two readings of a row's match, and the row of whatever the decoder accepts. -/
theorem decoderFollowsTheOpcodeTable : Obligations.DecoderFollowsTheOpcodeTable := by
  refine ⟨fun row hrow w => ⟨?strict, ?lenient⟩, fun strict w f hf => ?row⟩
  case strict => rw [decodesTo_row_iff hrow, and_mask_eq_pattern_iff hrow, forall_prop_of_true rfl]
  case lenient => simp [decodesTo_row_iff hrow]
  case row =>
    obtain ⟨row, hrow, -, -, hname, hwords⟩ := exists_row_of_decodeFirst_ok hf
    exact ⟨row, hrow, hname, hwords⟩

end Sys2Proof


/-! PROOFS. The encoder's word (spec/30_encoding.md R80, R81, R87): its number, its fields, and that the decoder reads the
instruction back from it under both readings. A running machine with the word at pc executes the instruction (R86). -/

namespace Sys2Proof

/-! ### Registers and their fields (R21) -/

@[simp] theorem Reg.field_toNat (r : Reg) : r.field.toNat = r.number := by cases r <;> rfl

@[simp] theorem regOfField_field (r : Reg) : regOfField r.field = r := by cases r <;> rfl

/-! ### Format R and Format J words -/

theorem append_toNat {m n : Nat} (x : BitVec m) (y : BitVec n) : (x ++ y).toNat = x.toNat * 2 ^ n + y.toNat := by
  rw [BitVec.toNat_append, ← Nat.shiftLeft_add_eq_or_of_lt y.isLt, Nat.shiftLeft_eq]

section Fields
variable (op : BitVec 5) (dst src : BitVec 3) (imm : BitVec 5) (address : BitVec 11)

/-- The number of a Format R word: each field at the weight of its lowest bit (R80). -/
theorem formatR_toNat :
    (formatR op dst src imm).toNat = op.toNat * 2048 + dst.toNat * 256 + src.toNat * 32 + imm.toNat := by
  simp only [formatR, append_toNat]
  omega

/-- The number of a Format J word (R81). -/
theorem formatJ_toNat : (formatJ op address).toNat = op.toNat * 2048 + address.toNat :=
  append_toNat op address

@[simp] theorem opField_formatR : opField (formatR op dst src imm) = op := by
  apply BitVec.eq_of_toNat_eq
  rw [opField, BitVec.extractLsb'_toNat, formatR_toNat, Nat.shiftRight_eq_div_pow]
  omega

@[simp] theorem dstField_formatR : dstField (formatR op dst src imm) = regOfField dst := by
  refine congrArg regOfField (BitVec.eq_of_toNat_eq ?_)
  rw [BitVec.extractLsb'_toNat, formatR_toNat, Nat.shiftRight_eq_div_pow]
  omega

@[simp] theorem srcField_formatR : srcField (formatR op dst src imm) = regOfField src := by
  refine congrArg regOfField (BitVec.eq_of_toNat_eq ?_)
  rw [BitVec.extractLsb'_toNat, formatR_toNat, Nat.shiftRight_eq_div_pow]
  omega

@[simp] theorem immField_formatR : immField (formatR op dst src imm) = imm.toNat := by
  rw [immField, BitVec.extractLsb'_toNat, formatR_toNat, Nat.shiftRight_zero]
  omega

@[simp] theorem opField_formatJ : opField (formatJ op address) = op := by
  apply BitVec.eq_of_toNat_eq
  rw [opField, BitVec.extractLsb'_toNat, formatJ_toNat, Nat.shiftRight_eq_div_pow]
  omega

@[simp] theorem addressField_formatJ : addressField (formatJ op address) = address.setWidth 16 := by
  refine congrArg (BitVec.setWidth 16) (BitVec.eq_of_toNat_eq ?_)
  rw [BitVec.extractLsb'_toNat, formatJ_toNat, Nat.shiftRight_zero]
  omega

/-! ### The unused fields of a word are zero where the encoder puts zero (R88) -/

theorem formatR_and_formatR (op' : BitVec 5) (dst' src' : BitVec 3) (imm' : BitVec 5) :
    formatR op dst src imm &&& formatR op' dst' src' imm' =
      formatR (op &&& op') (dst &&& dst') (src &&& src') (imm &&& imm') := by
  have happend : (op ++ dst ++ src ++ imm) &&& (op' ++ dst' ++ src' ++ imm') =
      (op &&& op') ++ (dst &&& dst') ++ (src &&& src') ++ (imm &&& imm') := by
    simp only [BitVec.and_append]
  exact happend

variable {op dst src imm} (strict : Bool) (f : FirstWord)

/-- A Format R word passes the check of the fields that a mask selects where each of them is zero. -/
theorem checkUnused_formatR (dstMask srcMask : BitVec 3) (immMask : BitVec 5) (hdst : dst &&& dstMask = 0)
    (hsrc : src &&& srcMask = 0) (himm : imm &&& immMask = 0) :
    checkUnused strict (formatR 0#5 dstMask srcMask immMask) (formatR op dst src imm) f = .ok f := by
  refine checkUnused_eq_ok_iff.mpr ⟨rfl, fun _ => ?_⟩
  rw [formatR_and_formatR, BitVec.and_zero, hdst, hsrc, himm]
  rfl

@[simp] theorem checkUnused_unusedImm : checkUnused strict unusedImm (formatR op dst src 0#5) f = .ok f :=
  checkUnused_formatR strict f 0 0 31 BitVec.and_zero BitVec.and_zero BitVec.zero_and

@[simp] theorem checkUnused_unusedSrc : checkUnused strict unusedSrc (formatR op dst 0#3 imm) f = .ok f :=
  checkUnused_formatR strict f 0 7 0 BitVec.and_zero BitVec.zero_and BitVec.and_zero

@[simp] theorem checkUnused_unusedSrcImm : checkUnused strict unusedSrcImm (formatR op dst 0#3 0#5) f = .ok f :=
  checkUnused_formatR strict f 0 7 31 BitVec.and_zero BitVec.zero_and BitVec.zero_and

@[simp] theorem checkUnused_unusedDstSrcImm :
    checkUnused strict unusedDstSrcImm (formatR op 0#3 0#3 0#5) f = .ok f :=
  checkUnused_formatR strict f 7 7 31 BitVec.zero_and BitVec.zero_and BitVec.zero_and

end Fields

/-! ### The decoder reads a one-word instruction back from its encoding -/

/-- A count that fits the field of 5 bits is carried whole (R84). -/
theorem ofNat_toNat_of_shiftCountFits {count : Nat} (h : shiftCountFits count = true) :
    (BitVec.ofNat 5 count).toNat = count := by
  have hle : count ≤ 31 := of_decide_eq_true h
  rw [BitVec.toNat_ofNat]
  omega

/-- An address that fits the field of 11 bits is carried whole (R84). -/
theorem setWidth_setWidth_of_jumpAddressFits {address : Word} (h : jumpAddressFits address = true) :
    (address.setWidth 11).setWidth 16 = address := by
  have hle : address.toNat ≤ 2047 := of_decide_eq_true h
  apply BitVec.eq_of_toNat_eq
  rw [BitVec.toNat_setWidth, BitVec.toNat_setWidth]
  omega

/-- The one word of a well-formed instruction decodes to the instruction, under both readings (R87, R89). -/
theorem decodeFirst_of_encode {i : Instr} {w : Word} (hi : i.wellFormed = true) (hw : encode i = [w]) (strict : Bool) :
    decodeFirst strict w = .ok (.complete i) := by
  cases i with
  | load | call => cases hw
  | nop | ret | halt | not | push | pop | mov | add | sub | and | or | xor | cmp | ldr | str =>
    obtain rfl := List.singleton_inj.mp hw
    simp [decodeFirst]
  | shl | shr =>
    obtain rfl := List.singleton_inj.mp hw
    have hcount := ofNat_toNat_of_shiftCountFits hi
    simp [decodeFirst, hcount]
  | jmp | jz | jnz | jn =>
    obtain rfl := List.singleton_inj.mp hw
    have haddress := setWidth_setWidth_of_jumpAddressFits hi
    simp [decodeFirst, haddress]

/-! ### The numbers of the encodings -/

/-- A Format R word of two registers, as the number that the operands make with the opcode's (R80). -/
theorem formatR_registers (op : BitVec 5) (rd rs : Reg) :
    formatR op rd.field rs.field 0#5 = BitVec.ofNat 16 (op.toNat * 2048 + rd.number * 256 + rs.number * 32) := by
  calc formatR op rd.field rs.field 0#5
    _ = BitVec.ofNat 16 (formatR op rd.field rs.field 0#5).toNat := by rw [BitVec.ofNat_toNat, BitVec.setWidth_eq]
    _ = BitVec.ofNat 16 (op.toNat * 2048 + rd.number * 256 + rs.number * 32) := by
      rw [formatR_toNat, Reg.field_toNat, Reg.field_toNat, BitVec.toNat_ofNat, Nat.zero_mod, Nat.add_zero]

end Sys2Proof

namespace Sys2Proof.Machine

/-- A step of a running machine whose word at pc is a whole instruction (R86, R230). -/
theorem step_of_decodeFirst_complete {s : State} {i : Instr} (hrun : s.halted = false)
    (hdecode : decodeFirst true (s.readWord s.pc) = .ok (.complete i)) : step s = exec i (s.setPc (s.pc + 2)) := by
  have hfetch : fetch s = .next (i, s.setPc (s.pc + 2)) := by
    rw [fetch_eq, hrun, hdecode]
    rfl
  exact step_of_fetch hfetch

/-- A running machine executes a well-formed one-word instruction from the word the encoder gives it (R86, R87). -/
theorem encodedAs_of_encode {i : Instr} {w : Nat} (hi : i.wellFormed = true) (hw : encode i = [BitVec.ofNat 16 w]) :
    EncodedAs i w := by
  intro s hrun hword
  apply step_of_decodeFirst_complete hrun
  rw [hword]
  exact decodeFirst_of_encode hi hw true

/-- An instruction whose encoding is a Format R word of two registers and no immediate (R87). -/
theorem encodedAs_of_encode_registers {i : Instr} {op : BitVec 5} {rd rs : Reg} (hi : i.wellFormed = true)
    (hw : encode i = [formatR op rd.field rs.field 0#5]) :
    EncodedAs i (op.toNat * 2048 + rd.number * 256 + rs.number * 32) := by
  rw [formatR_registers] at hw
  exact encodedAs_of_encode hi hw

end Sys2Proof.Machine


/-! PROOFS. Data movement (spec/40_data_movement.md): NOP, MOV, LDR and STR, each as the one update of the state that it makes,
with that update's frame. -/

namespace Sys2Proof.Machine

/-- The frame of a register write: nothing but that register. -/
theorem State.onlyRegister_setReg (s : State) (rd : Reg) (v : Word) : OnlyRegister rd s (s.setReg rd v) := by
  refine ⟨fun r hr => ?_, rfl, rfl, rfl, rfl, fun _ => rfl⟩
  rw [State.reg_setReg, if_neg hr]

theorem exec_nop (s : State) : exec .nop s = .next s := rfl

theorem exec_mov (rd rs : Reg) (s : State) : exec (.mov rd rs) s = .next (s.setReg rd (s.reg rs)) := rfl

theorem exec_ldr (rd rs : Reg) (s : State) : exec (.ldr rd rs) s = .next (s.setReg rd (s.readWord (s.reg rs))) := rfl

theorem exec_str (rd rs : Reg) (s : State) :
    exec (.str rd rs) s = .next (s.writeWord (indirectAddress s rd) (s.reg rs)) := rfl

/-- Settles O11: MOV is one register write, of the value that Rs held. -/
theorem movCopiesTheSource : Obligations.MovCopiesTheSource := by
  refine ⟨fun rd rs s => ?effect, fun rd rs => ?encoding⟩
  case effect => exact ⟨_, exec_mov rd rs s, s.reg_setReg_same rd _, s.onlyRegister_setReg rd _⟩
  case encoding => exact encodedAs_of_encode_registers (op := 0x02) rfl rfl

/-- Settles O12: LDR is one register write, of the word whose number its two bytes make. -/
theorem ldrReadsTheWordAtTheSource : Obligations.LdrReadsTheWordAtTheSource := by
  refine ⟨fun rd rs s => ?effect, fun rd rs => ?encoding, fun _ _ => rfl⟩
  case effect =>
    refine ⟨_, exec_ldr rd rs s, ?_, s.onlyRegister_setReg rd _⟩
    rw [State.reg_setReg_same, State.readWord_toNat]
  case encoding => exact encodedAs_of_encode_registers (op := 0x10) rfl rfl

/-- Settles O13: STR is one word write, which leaves everything but memory whole. -/
theorem strStoresTheSource : Obligations.StrStoresTheSource := by
  refine ⟨fun rd rs s => ?effect, fun rd rs => ?encoding, fun _ _ => rfl⟩
  case effect =>
    exact ⟨_, exec_str rd rs s, s.holdsWord_writeWord _ _, s.sameMemoryBut_writeWord _ _, s.writeWord_reg _ _,
      rfl, rfl, rfl, rfl⟩
  case encoding => exact encodedAs_of_encode_registers (op := 0x11) rfl rfl

/-- Settles O9: NOP's execute phase is the identity, and 0x0000 is the word of its encoding. -/
theorem nopChangesNothing : Obligations.NopChangesNothing :=
  ⟨exec_nop, encodedAs_of_encode rfl rfl, rfl⟩

end Sys2Proof.Machine


/-! PROOFS. Arithmetic (spec/41_arithmetic.md): the flags of a result as statements about its bits (spec/10_state.md R28,
R32, R120), the write of a result with its frame, then ADD, SUB and CMP as the one update of the state that each makes. -/

namespace Sys2Proof.Machine

/-! ### The flags of a result -/

theorem zeroFlag_eq_true_iff (r : Word) : zeroFlag r = true ↔ r = 0 := beq_iff_eq

theorem negativeFlag_eq_getLsbD (r : Word) : negativeFlag r = r.getLsbD 15 := BitVec.msb_eq_getLsbD_last r

theorem addOverflow_eq_true_iff (a b r : Word) :
    addOverflow a b r = true ↔ a.getLsbD 15 = b.getLsbD 15 ∧ r.getLsbD 15 ≠ a.getLsbD 15 := by
  simp only [addOverflow, BitVec.msb_eq_getLsbD_last, Bool.and_eq_true, beq_iff_eq, bne_iff_ne]

theorem subOverflow_eq_true_iff (a b r : Word) :
    subOverflow a b r = true ↔ a.getLsbD 15 ≠ b.getLsbD 15 ∧ r.getLsbD 15 ≠ a.getLsbD 15 := by
  simp only [subOverflow, BitVec.msb_eq_getLsbD_last, Bool.and_eq_true, bne_iff_ne]

/-- A state whose FLAGS were written from a result `r` shows the Z and N of `r`, and an O that says what `o` was computed from. -/
theorem flagsOf_of_flags_eq_result {t : State} {f : Flags} {r : Word} {o : Bool} {p : Prop}
    (hflags : t.flags = f.result r o) (ho : o = true ↔ p) : FlagsOf r p t := by
  rw [FlagsOf, hflags, Flags.result_z, Flags.result_n, Flags.result_o, negativeFlag_eq_getLsbD]
  exact ⟨zeroFlag_eq_true_iff r, Iff.rfl, ho⟩

/-! ### The write of a result -/

@[simp] theorem State.reg_setResult_same (s : State) (rd : Reg) (r : Word) (o : Bool) : (s.setResult rd r o).reg rd = r :=
  Regs.get_set_same s.regs rd r

/-- The flags that the write of a result leaves are those of the content of Rd after it. -/
theorem State.flagsOf_setResult (s : State) (rd : Reg) (r : Word) {o : Bool} {p : Prop} (ho : o = true ↔ p) :
    FlagsOf ((s.setResult rd r o).reg rd) p (s.setResult rd r o) := by
  rw [State.reg_setResult_same]
  exact flagsOf_of_flags_eq_result (State.setResult_flags s rd r o) ho

/-- The frame of the write of a result: nothing but Rd and Z, N, O. -/
theorem State.onlyResult_setResult (s : State) (rd : Reg) (r : Word) (o : Bool) : OnlyResult rd s (s.setResult rd r o) := by
  refine ⟨fun q hq => ?_, rfl, rfl, rfl, rfl, fun _ => rfl⟩
  rw [State.reg_setResult, if_neg hq]

/-! ### ADD, SUB and CMP -/

theorem exec_add (rd rs : Reg) (s : State) : exec (.add rd rs) s =
    .next (s.setResult rd (s.reg rd + s.reg rs) (addOverflow (s.reg rd) (s.reg rs) (s.reg rd + s.reg rs))) := rfl

theorem exec_sub (rd rs : Reg) (s : State) : exec (.sub rd rs) s =
    .next (s.setResult rd (s.reg rd - s.reg rs) (subOverflow (s.reg rd) (s.reg rs) (s.reg rd - s.reg rs))) := rfl

theorem exec_cmp (rd rs : Reg) (s : State) : exec (.cmp rd rs) s =
    .next (s.setResultFlags (s.reg rd - s.reg rs) (subOverflow (s.reg rd) (s.reg rs) (s.reg rd - s.reg rs))) := rfl

/-- The difference of two words is the integer difference of their numbers, modulo 65536 (R120). -/
theorem ofInt_toNat_sub_toNat (a b : Word) : BitVec.ofInt 16 (a.toNat - b.toNat) = a - b := by
  rw [Int.sub_eq_add_neg, BitVec.ofInt_add, BitVec.ofInt_neg, BitVec.ofInt_natCast, BitVec.ofInt_natCast, BitVec.ofNat_toNat,
    BitVec.ofNat_toNat, BitVec.setWidth_eq, BitVec.setWidth_eq, BitVec.sub_eq_add_neg]

/-- Settles O14: ADD writes one result, the sum of the words as numbers modulo 65536. -/
theorem addWritesSumAndFlags : Obligations.AddWritesSumAndFlags := by
  refine ⟨fun rd rs s => ?effect, fun rd rs => ?encoding⟩
  case effect =>
    refine ⟨_, exec_add rd rs s, ?sum, s.flagsOf_setResult rd _ ?overflow, s.onlyResult_setResult rd _ _⟩
    case sum => rw [State.reg_setResult_same, BitVec.add_def]
    case overflow =>
      rw [State.reg_setResult_same]
      exact addOverflow_eq_true_iff _ _ _
  case encoding => exact encodedAs_of_encode_registers (op := 0x03) rfl rfl

/-- Settles O15: SUB writes one result, the difference of the words as integers modulo 65536. -/
theorem subWritesDifferenceAndFlags : Obligations.SubWritesDifferenceAndFlags := by
  refine ⟨fun rd rs s => ?effect, fun rd rs => ?encoding⟩
  case effect =>
    refine ⟨_, exec_sub rd rs s, ?difference, s.flagsOf_setResult rd _ ?overflow, s.onlyResult_setResult rd _ _⟩
    case difference => rw [State.reg_setResult_same, ofInt_toNat_sub_toNat]
    case overflow =>
      rw [State.reg_setResult_same]
      exact subOverflow_eq_true_iff _ _ _
  case encoding => exact encodedAs_of_encode_registers (op := 0x04) rfl rfl

/-- Settles O16: CMP writes to FLAGS what SUB writes there, the flags of the difference, and makes no other update. -/
theorem cmpWritesOnlyTheFlagsOfSub : Obligations.CmpWritesOnlyTheFlagsOfSub := by
  refine ⟨fun rd rs s => ?effect, fun rd rs => ?encoding⟩
  case effect =>
    refine ⟨_, _, exec_cmp rd rs s, exec_sub rd rs s, rfl, ?flags, fun _ => rfl, rfl, rfl, rfl, rfl, fun _ => rfl⟩
    case flags =>
      rw [ofInt_toNat_sub_toNat]
      exact flagsOf_of_flags_eq_result (State.setResultFlags_flags s _ _) (subOverflow_eq_true_iff _ _ _)
  case encoding => exact encodedAs_of_encode_registers (op := 0x0B) rfl rfl

end Sys2Proof.Machine


/-! PROOFS. Control flow (spec/44_control_flow.md): the encoding of an instruction that has an address, then the four jumps, each
as the one write of pc that it makes, with that write's frame (R150). -/

namespace Sys2Proof

/-- A Format J word of an address that fits its field, as the number that the address makes with the opcode's (R81). -/
theorem formatJ_address (op : BitVec 5) {address : Word} (h : address.toNat ≤ 2047) :
    formatJ op (address.setWidth 11) = BitVec.ofNat 16 (op.toNat * 2048 + address.toNat) := by
  have hfield : (address.setWidth 11).toNat = address.toNat := by
    rw [BitVec.toNat_setWidth]
    exact Nat.mod_eq_of_lt (Nat.lt_succ_of_le h)
  calc formatJ op (address.setWidth 11)
    _ = BitVec.ofNat 16 (formatJ op (address.setWidth 11)).toNat := by rw [BitVec.ofNat_toNat, BitVec.setWidth_eq]
    _ = BitVec.ofNat 16 (op.toNat * 2048 + address.toNat) := by rw [formatJ_toNat, hfield]

end Sys2Proof

namespace Sys2Proof.Machine

/-- An instruction whose encoding is a Format J word of an address that fits 11 bits (R84, R87). -/
theorem encodedAs_of_encode_address {i : Instr} {op : BitVec 5} {address : Word} (hfits : address.toNat ≤ 2047)
    (hi : i.wellFormed = jumpAddressFits address) (hw : encode i = [formatJ op (address.setWidth 11)]) :
    EncodedAs i (op.toNat * 2048 + address.toNat) := by
  rw [formatJ_address op hfits] at hw
  exact encodedAs_of_encode (hi.trans (decide_eq_true hfits)) hw

/-! ### Where a jump goes and what it leaves -/

/-- The frame of a write of pc: nothing but pc. -/
theorem State.onlyPc_setPc (s : State) (v : Word) : OnlyPc s (s.setPc v) :=
  ⟨s.setPc_reg v, rfl, rfl, rfl, s.setPc_readByte v⟩

/-- A conditional jump, taken or not, leaves all but pc (R150). -/
theorem onlyPc_jumpIf (c : Bool) (address : Word) (s : State) : OnlyPc s (jumpIf c address s) := by
  rw [jumpIf_eq]
  exact s.onlyPc_setPc _

theorem jumpIf_pc_of_true {c : Bool} (hc : c = true) (address : Word) (s : State) : (jumpIf c address s).pc = address := by
  rw [jumpIf_eq, State.setPc_pc, if_pos hc]

theorem jumpIf_pc_of_false {c : Bool} (hc : c = false) (address : Word) (s : State) : (jumpIf c address s).pc = s.pc := by
  rw [jumpIf_eq, State.setPc_pc, hc, if_neg Bool.false_ne_true]

/-- An instruction that answers the conditional jump on `c`, said once: where it goes and that it leaves all but pc. -/
theorem exists_next_of_exec_eq_jumpIf {i : Instr} {c : Bool} {address : Word} {s : State}
    (hexec : exec i s = .next (jumpIf c address s)) :
    ∃ t, exec i s = .next t ∧ (c = true → t.pc = address) ∧ (c = false → t.pc = s.pc) ∧ OnlyPc s t := by
  refine ⟨_, hexec, fun htaken => ?taken, fun hnot => ?notTaken, onlyPc_jumpIf c address s⟩
  case taken => exact jumpIf_pc_of_true htaken address s
  case notTaken => exact jumpIf_pc_of_false hnot address s

/-! ### JMP, JZ, JNZ and JN -/

theorem exec_jmp (address : Word) (s : State) : exec (.jmp address) s = .next (s.setPc address) := rfl

theorem exec_jz (address : Word) (s : State) : exec (.jz address) s = .next (jumpIf s.flags.z address s) := rfl

theorem exec_jnz (address : Word) (s : State) : exec (.jnz address) s = .next (jumpIf (!s.flags.z) address s) := rfl

theorem exec_jn (address : Word) (s : State) : exec (.jn address) s = .next (jumpIf s.flags.n address s) := rfl

/-- Settles O23: JMP is one write of pc. -/
theorem jmpGoesToTheAddress : Obligations.JmpGoesToTheAddress := by
  refine ⟨fun address s => ?effect, fun address hfits => ?encoding⟩
  case effect => exact ⟨_, exec_jmp address s, s.setPc_pc address, s.onlyPc_setPc address⟩
  case encoding => exact encodedAs_of_encode_address (op := 0x0C) hfits rfl rfl

/-- Settles O24: JZ is the conditional jump on Z. -/
theorem jzGoesWhereZeroIsSet : Obligations.JzGoesWhereZeroIsSet := by
  refine ⟨fun address s => ?effect, fun address hfits => ?encoding⟩
  case effect => exact exists_next_of_exec_eq_jumpIf (exec_jz address s)
  case encoding => exact encodedAs_of_encode_address (op := 0x0D) hfits rfl rfl

/-- Settles O25: JNZ is the conditional jump on the complement of Z. -/
theorem jnzGoesWhereZeroIsClear : Obligations.JnzGoesWhereZeroIsClear := by
  refine ⟨fun address s => ?effect, fun address hfits => ?encoding⟩
  case effect =>
    have hjump := exists_next_of_exec_eq_jumpIf (exec_jnz address s)
    simpa only [Bool.not_eq_true', Bool.not_eq_false'] using hjump
  case encoding => exact encodedAs_of_encode_address (op := 0x0E) hfits rfl rfl

/-- Settles O26: JN is the conditional jump on N. -/
theorem jnGoesWhereNegativeIsSet : Obligations.JnGoesWhereNegativeIsSet := by
  refine ⟨fun address s => ?effect, fun address hfits => ?encoding⟩
  case effect => exact exists_next_of_exec_eq_jumpIf (exec_jn address s)
  case encoding => exact encodedAs_of_encode_address (op := 0x0F) hfits rfl rfl

end Sys2Proof.Machine


/-! PROOFS. Subroutines (spec/45_subroutine.md): the word on top of the stack as its two bytes (spec/20_memory.md R52), then RET as
the transfer to that word and the drop of it. -/

namespace Sys2Proof.Machine

/-- The word on top of the stack as a number: its low half at sp, its high half behind it (R52, R162). -/
theorem State.topWord_toNat (s : State) :
    s.topWord.toNat = (s.readByte s.sp).toNat + 256 * (s.readByte (s.sp + 1)).toNat :=
  s.readWord_toNat s.sp

theorem exec_ret (s : State) : exec .ret s = .next (s.setPc s.topWord).dropWord := rfl

/-- Settles O28: RET's pc is the word on top of the stack; raising sp leaves that word, and all else, where it was. -/
theorem retGoesToTheTopOfStack : Obligations.RetGoesToTheTopOfStack := by
  refine ⟨fun s => ?effect, ?encoding, rfl⟩
  case effect =>
    refine ⟨_, exec_ret s, ?_, rfl, fun _ => rfl, rfl, rfl, fun _ => rfl⟩
    rw [State.dropWord_pc, State.setPc_pc, State.topWord_toNat]
  case encoding => exact encodedAs_of_encode rfl rfl

end Sys2Proof.Machine


/-! PROOFS. The stack (spec/46_stack.md): a push as the lowering of sp and one word write behind it, with the frame of that write
(spec/20_memory.md R53), then PUSH and POP as the updates of the state that they make. -/

namespace Sys2Proof.Machine

/-- An instruction whose encoding is a Format R word of one register: the fields Rs and Imm5 are 0 (R87). -/
theorem encodedAs_of_encode_register {i : Instr} {op : BitVec 5} {r : Reg} (hi : i.wellFormed = true)
    (hw : encode i = [formatR op r.field 0#3 0#5]) : EncodedAs i (op.toNat * 2048 + r.number * 256) := by
  have hregisters : EncodedAs i (op.toNat * 2048 + r.number * 256 + Reg.r0.number * 32) :=
    encodedAs_of_encode_registers hi hw
  rwa [show Reg.r0.number * 32 = 0 from rfl, Nat.add_zero] at hregisters

/-- A push is a word write at the push address, in the state with sp lowered. -/
theorem State.pushWord_eq_writeWord (s : State) (v : Word) :
    s.pushWord v = (s.setSp (s.sp - 2)).writeWord (pushAddress s) v := rfl

/-- A push puts the word where sp is after it, low byte first (R50, R171). -/
theorem State.holdsWord_pushWord (s : State) (v : Word) : HoldsWord (s.pushWord v) (pushAddress s) v := by
  rw [State.pushWord_eq_writeWord]
  exact State.holdsWord_writeWord _ _ _

/-- The frame of a push in memory: no byte but the two of the word pushed (R53). -/
theorem State.sameMemoryBut_pushWord (s : State) (v : Word) : SameMemoryBut (pushAddress s) s (s.pushWord v) := by
  rw [State.pushWord_eq_writeWord]
  exact State.sameMemoryBut_writeWord (s.setSp (s.sp - 2)) _ _

theorem exec_push (rs : Reg) (s : State) : exec (.push rs) s = .next (s.pushWord (s.reg rs)) := rfl

theorem exec_pop (rd : Reg) (s : State) : exec (.pop rd) s = .next (s.setReg rd s.topWord).dropWord := rfl

/-- Settles O29: PUSH is one push, of the value that Rs holds. -/
theorem pushStoresBelowTheStack : Obligations.PushStoresBelowTheStack := by
  refine ⟨fun rs s => ?effect, fun rs => ?encoding, fun _ => rfl⟩
  case effect =>
    exact ⟨_, exec_push rs s, s.pushWord_sp _, s.holdsWord_pushWord _, s.sameMemoryBut_pushWord _, s.pushWord_reg _,
      rfl, rfl, rfl⟩
  case encoding => exact encodedAs_of_encode_register (op := 0x12) rfl rfl

/-- Settles O30: POP is one register write, of the word on top of the stack, and the drop of that word. -/
theorem popTakesTheTopOfStack : Obligations.PopTakesTheTopOfStack := by
  refine ⟨fun rd s => ?effect, fun rd => ?encoding, fun _ => rfl⟩
  case effect =>
    obtain ⟨hregs, hpc, -, hflags, hhalted, hmem⟩ := s.onlyRegister_setReg rd s.topWord
    refine ⟨_, exec_pop rd s, ?top, rfl, hregs, hpc, hflags, hhalted, hmem⟩
    case top => rw [State.dropWord_reg, State.reg_setReg_same, State.topWord_toNat]
  case encoding => exact encodedAs_of_encode_register (op := 0x13) rfl rfl

end Sys2Proof.Machine


/-! PROOFS. The round trips of the encoding (spec/30_encoding.md R87 to R89, R92, R98): a word put together again from its fields,
the words of an instruction from its first word's decoding and back, then the same over bytes. -/

namespace Sys2Proof

/-! ### A word from its fields (R80, R81) -/

@[simp] theorem field_regOfField (b : BitVec 3) : (regOfField b).field = b := by
  have hall : ∀ b : BitVec 3, (regOfField b).field = b := by decide
  exact hall b

/-- A word is its four fields of Format R put together. -/
theorem formatR_fields (w : Word) :
    formatR (opField w) (dstField w).field (srcField w).field (BitVec.ofNat 5 (immField w)) = w := by
  apply BitVec.eq_of_toNat_eq
  rw [formatR_toNat, opField, dstField, srcField, immField, field_regOfField, field_regOfField, BitVec.ofNat_toNat,
    BitVec.setWidth_eq]
  simp only [BitVec.extractLsb'_toNat, Nat.shiftRight_eq_div_pow]
  omega

/-- A word is its two fields of Format J put together. -/
theorem formatJ_fields (w : Word) : formatJ (opField w) ((addressField w).setWidth 11) = w := by
  apply BitVec.eq_of_toNat_eq
  rw [formatJ_toNat, opField, addressField]
  simp only [BitVec.toNat_setWidth, BitVec.extractLsb'_toNat, Nat.shiftRight_eq_div_pow]
  omega

theorem formatR_eq_zero_iff {op : BitVec 5} {dst src : BitVec 3} {imm : BitVec 5} :
    formatR op dst src imm = 0#16 ↔ op = 0#5 ∧ dst = 0#3 ∧ src = 0#3 ∧ imm = 0#5 := by
  simp only [← BitVec.toNat_inj, formatR_toNat, BitVec.toNat_ofNat]
  omega

/-- Where a mask of fields finds nothing in a word, each of the masked fields is zero. -/
theorem fields_of_and_formatR_eq_zero {w : Word} {dstMask srcMask : BitVec 3} {immMask : BitVec 5}
    (h : w &&& formatR 0#5 dstMask srcMask immMask = 0#16) :
    (dstField w).field &&& dstMask = 0#3 ∧ (srcField w).field &&& srcMask = 0#3 ∧
      BitVec.ofNat 5 (immField w) &&& immMask = 0#5 := by
  rw [← formatR_fields w, formatR_and_formatR, formatR_eq_zero_iff] at h
  simpa using h.2

section Unused
variable {w : Word} {n : Nat} (hop : (opField w).toNat = n)
include hop

theorem opField_eq_ofNat : opField w = BitVec.ofNat 5 n := by
  rw [← hop, BitVec.ofNat_toNat, BitVec.setWidth_eq]

/-- A two-register instruction's word under the strict reading: Imm5 is zero. -/
theorem eq_formatR_of_unusedImm (h : w &&& unusedImm = 0#16) :
    w = formatR (BitVec.ofNat 5 n) (dstField w).field (srcField w).field 0#5 := by
  obtain ⟨-, -, himm⟩ := fields_of_and_formatR_eq_zero (dstMask := 0) (srcMask := 0) (immMask := 31) h
  have himm : BitVec.ofNat 5 (immField w) = 0#5 := BitVec.and_allOnes.symm.trans himm
  simpa only [opField_eq_ofNat hop, himm] using (formatR_fields w).symm

/-- A shift's word under the strict reading: Src is zero. -/
theorem eq_formatR_of_unusedSrc (h : w &&& unusedSrc = 0#16) :
    w = formatR (BitVec.ofNat 5 n) (dstField w).field 0#3 (BitVec.ofNat 5 (immField w)) := by
  obtain ⟨-, hsrc, -⟩ := fields_of_and_formatR_eq_zero (dstMask := 0) (srcMask := 7) (immMask := 0) h
  have hsrc : (srcField w).field = 0#3 := BitVec.and_allOnes.symm.trans hsrc
  simpa only [opField_eq_ofNat hop, hsrc] using (formatR_fields w).symm

/-- A one-register instruction's word under the strict reading: Src and Imm5 are zero. -/
theorem eq_formatR_of_unusedSrcImm (h : w &&& unusedSrcImm = 0#16) :
    w = formatR (BitVec.ofNat 5 n) (dstField w).field 0#3 0#5 := by
  obtain ⟨-, hsrc, himm⟩ := fields_of_and_formatR_eq_zero (dstMask := 0) (srcMask := 7) (immMask := 31) h
  have hsrc : (srcField w).field = 0#3 := BitVec.and_allOnes.symm.trans hsrc
  have himm : BitVec.ofNat 5 (immField w) = 0#5 := BitVec.and_allOnes.symm.trans himm
  simpa only [opField_eq_ofNat hop, hsrc, himm] using (formatR_fields w).symm

/-- The word of an instruction without operands under the strict reading: all but Op is zero. -/
theorem eq_formatR_of_unusedDstSrcImm (h : w &&& unusedDstSrcImm = 0#16) :
    w = formatR (BitVec.ofNat 5 n) 0#3 0#3 0#5 := by
  obtain ⟨hdst, hsrc, himm⟩ := fields_of_and_formatR_eq_zero (dstMask := 7) (srcMask := 7) (immMask := 31) h
  have hdst : (dstField w).field = 0#3 := BitVec.and_allOnes.symm.trans hdst
  have hsrc : (srcField w).field = 0#3 := BitVec.and_allOnes.symm.trans hsrc
  have himm : BitVec.ofNat 5 (immField w) = 0#5 := BitVec.and_allOnes.symm.trans himm
  simpa only [opField_eq_ofNat hop, hdst, hsrc, himm] using (formatR_fields w).symm

/-- A jump's word uses all its bits. -/
theorem eq_formatJ_of_opField : w = formatJ (BitVec.ofNat 5 n) ((addressField w).setWidth 11) := by
  simpa only [opField_eq_ofNat hop] using (formatJ_fields w).symm

end Unused

theorem shiftCountFits_immField (w : Word) : shiftCountFits (immField w) = true := by
  have hlt : immField w < 32 := (w.extractLsb' 0 5).isLt
  exact decide_eq_true (by omega)

theorem jumpAddressFits_addressField (w : Word) : jumpAddressFits (addressField w) = true := by
  refine decide_eq_true ?_
  have hlt : (w.extractLsb' 0 11).toNat < 2048 := (w.extractLsb' 0 11).isLt
  rw [addressField, BitVec.toNat_setWidth]
  omega

/-! ### The instruction and its words -/

/-- What the strict decoder accepts for a first word is the first word of the encoding of the instruction, whatever the second one
is (R88, R89). -/
theorem encode_of_decodeFirst {w : Word} {f : FirstWord} (h : decodeFirst true w = .ok f) (w2 : Word) :
    encode (f.withSecond w2) = w :: [w2].take (f.words - 1) ∧ (f.withSecond w2).wellFormed = true := by
  rw [decodeFirst] at h
  split at h
  case h_1 hop | h_21 hop | h_22 hop | h_23 hop =>
    obtain ⟨rfl, hunused⟩ := checkUnused_eq_ok_iff.mp h
    exact ⟨congrArg (· :: _) (eq_formatR_of_unusedDstSrcImm hop (hunused rfl)).symm, rfl⟩
  case h_2 hop | h_9 hop | h_19 hop | h_20 hop =>
    obtain ⟨rfl, hunused⟩ := checkUnused_eq_ok_iff.mp h
    exact ⟨congrArg (· :: _) (eq_formatR_of_unusedSrcImm hop (hunused rfl)).symm, rfl⟩
  case h_3 hop | h_4 hop | h_5 hop | h_6 hop | h_7 hop | h_8 hop | h_12 hop | h_17 hop | h_18 hop =>
    obtain ⟨rfl, hunused⟩ := checkUnused_eq_ok_iff.mp h
    exact ⟨congrArg (· :: _) (eq_formatR_of_unusedImm hop (hunused rfl)).symm, rfl⟩
  case h_10 hop | h_11 hop =>
    obtain ⟨rfl, hunused⟩ := checkUnused_eq_ok_iff.mp h
    exact ⟨congrArg (· :: _) (eq_formatR_of_unusedSrc hop (hunused rfl)).symm, shiftCountFits_immField w⟩
  case h_13 hop | h_14 hop | h_15 hop | h_16 hop =>
    obtain rfl := Except.ok.inj h
    exact ⟨congrArg (· :: _) (eq_formatJ_of_opField hop).symm, jumpAddressFits_addressField w⟩
  case h_24 => cases h

/-- The first word of a well-formed instruction decodes to what the instruction is with its second word, under both readings
(R87, R89). -/
theorem exists_decodeFirst_of_encode {i : Instr} (hi : i.wellFormed = true) :
    ∃ w w2 f, encode i = w :: [w2].take (f.words - 1) ∧ f.withSecond w2 = i ∧ ∀ strict, decodeFirst strict w = .ok f := by
  cases i with
  | load rd value => exact ⟨_, value, .loadValue rd, rfl, rfl, fun _ => by simp [decodeFirst]⟩
  | call address => exact ⟨_, address, .callTarget, rfl, rfl, fun _ => by simp [decodeFirst]⟩
  | nop | ret | halt | not | push | pop | mov | add | sub | and | or | xor | cmp | ldr | str | shl | shr | jmp | jz | jnz
  | jn => exact ⟨_, 0, .complete _, rfl, rfl, decodeFirst_of_encode hi rfl⟩

/-! ### Bytes -/

@[simp] theorem lowByte_wordOfBytes (high low : Byte) : lowByte (wordOfBytes high low) = low := by
  apply BitVec.eq_of_toNat_eq
  rw [Machine.lowByte_toNat, Machine.wordOfBytes_toNat]
  omega

@[simp] theorem highByte_wordOfBytes (high low : Byte) : highByte (wordOfBytes high low) = high := by
  apply BitVec.eq_of_toNat_eq
  rw [Machine.highByte_toNat, Machine.wordOfBytes_toNat]
  omega

theorem bytesOfWords_cons (w : Word) (ws : List Word) :
    bytesOfWords (w :: ws) = lowByte w :: highByte w :: bytesOfWords ws := rfl

theorem bytesOfWords_nil : bytesOfWords [] = [] := rfl

/-- What the byte decoder accepts, said once: the bytes of a first word that decodes, and of a second word where the first one
asks for it (R51, R86). -/
theorem decodeBytesWith_eq_ok_iff {strict : Bool} {bs rest : List Byte} {i : Instr} :
    decodeBytesWith strict bs = .ok (i, rest) ↔
      ∃ w w2 f, decodeFirst strict w = .ok f ∧ f.withSecond w2 = i ∧
        bs = bytesOfWords (w :: [w2].take (f.words - 1)) ++ rest := by
  constructor
  · intro h
    rw [decodeBytesWith.eq_def] at h
    split at h
    case h_2 => cases h
    case h_1 b0 b1 tail =>
      split at h
      case h_1 => cases h
      case h_2 j hf =>
        obtain ⟨rfl, rfl⟩ := Prod.mk.inj (Except.ok.inj h)
        refine ⟨wordOfBytes b1 b0, 0, .complete j, hf, rfl, ?_⟩
        simp [FirstWord.words, bytesOfWords_cons, bytesOfWords_nil]
      case h_3 f hnot hf =>
        split at h
        case h_2 => cases h
        case h_1 b2 b3 tail =>
          obtain ⟨rfl, rfl⟩ := Prod.mk.inj (Except.ok.inj h)
          have hwords : f.words = 2 := by
            cases f with
            | complete j => exact (hnot j rfl).elim
            | loadValue | callTarget => rfl
          refine ⟨wordOfBytes b1 b0, wordOfBytes b3 b2, f, hf, rfl, ?_⟩
          simp [hwords, bytesOfWords_cons, bytesOfWords_nil]
  · rintro ⟨w, w2, f, hf, rfl, rfl⟩
    cases f with
    | complete | loadValue | callTarget =>
      simp [FirstWord.words, FirstWord.withSecond, bytesOfWords_cons, bytesOfWords_nil, decodeBytesWith,
        Machine.wordOfBytes_high_low, hf]

/-- Settles O37: the encoding is a first word that decodes, and a second word where the instruction has one. -/
theorem decodeOfEncode : Obligations.DecodeOfEncode := by
  intro strict i rest hi
  obtain ⟨w, w2, f, hw, hf, hdecode⟩ := exists_decodeFirst_of_encode hi
  rw [encodeBytes, hw]
  exact decodeBytesWith_eq_ok_iff.mpr ⟨w, w2, f, hdecode strict, hf, rfl⟩

/-- Settles O38: the bytes are those of the words that the decoder took, which are the encoding's. -/
theorem encodeOfDecode : Obligations.EncodeOfDecode := by
  intro bs rest i h
  obtain ⟨w, w2, f, hdecode, rfl, rfl⟩ := decodeBytesWith_eq_ok_iff.mp h
  obtain ⟨hwords, hwf⟩ := encode_of_decodeFirst hdecode w2
  rw [encodeBytes, hwords]
  exact ⟨rfl, hwf⟩

/-- Settles O39: ten closed evaluations of the decoder. -/
theorem printedWordsDecode : Obligations.PrintedWordsDecode := by
  unfold Obligations.PrintedWordsDecode
  decide

end Sys2Proof


/-! PROOFS. The step through its first word (spec/30_encoding.md R86, spec/60_exceptions.md R193, spec/70_reset_and_hazards.md
R230): a halted machine, a word that is no instruction's with the fault it raises, and an instruction with its second word. -/

namespace Sys2Proof

theorem encode_length (i : Instr) : (encode i).length = i.words := by cases i <;> rfl

/-- The length that a first word announces is that of the instruction (R85). -/
theorem words_withSecond {w : Word} {f : FirstWord} (h : decodeFirst true w = .ok f) (w2 : Word) :
    (f.withSecond w2).words = f.words := by
  rw [← encode_length, (encode_of_decodeFirst h w2).1]
  cases f <;> rfl

/-! ### Words that are no instruction (R89, R91) -/

theorem opField_toNat (w : Word) : (opField w).toNat = w.toNat / 2048 := by
  rw [opField, BitVec.extractLsb'_toNat, Nat.shiftRight_eq_div_pow]
  omega

/-- The check of the unused fields refuses for no other reason than a field that is not zero. -/
theorem checkUnused_eq_error_iff {strict : Bool} {unused w : Word} {f : FirstWord} {e : WordError} :
    checkUnused strict unused w f = .error e ↔ strict = true ∧ w &&& unused ≠ 0 ∧ e = .reservedEncoding := by
  cases strict with
  | false => simp [checkUnused]
  | true => by_cases h : w &&& unused = 0#16 <;> simp [checkUnused, h, @eq_comm WordError]

/-- IllegalOpcode is the answer for the OPs from 0x17 on and for no other (R91). -/
theorem decodeFirst_eq_illegalOpcode_iff {strict : Bool} {w : Word} :
    decodeFirst strict w = .error .illegalOpcode ↔ 0x17 ≤ (opField w).toNat := by
  refine ⟨fun h => ?_, decodeFirst_of_opField_ge⟩
  by_contra hlt
  obtain ⟨row, hrow, hw⟩ := exists_row_of_opField_lt (Nat.lt_of_not_le hlt)
  obtain ⟨f, hf, -, -⟩ := decodeFirst_of_row hrow hw strict
  obtain ⟨-, -, hreason⟩ := checkUnused_eq_error_iff.mp (hf ▸ h)
  cases hreason

/-- A word of a row is a reserved encoding exactly when it does not match under the row's mask (R88, R89). -/
theorem decodeFirst_eq_reservedEncoding_of_row {row : OpcodeRow} (hrow : row ∈ opcodeRows) {w : Word}
    (hw : w &&& 0xF800 = row.pattern) :
    decodeFirst true w = .error .reservedEncoding ↔ w &&& row.mask ≠ row.pattern := by
  obtain ⟨f, hf, -, -⟩ := decodeFirst_of_row hrow hw true
  rw [hf, checkUnused_eq_error_iff, Ne, Ne, and_mask_eq_pattern_iff hrow]
  exact ⟨fun ⟨_, hunused, _⟩ ⟨_, hzero⟩ => hunused hzero, fun h => ⟨rfl, fun hzero => h ⟨hw, hzero⟩, rfl⟩⟩

/-- ReservedEncoding is the answer for a row's OP with an unused field that is not zero, and for no other word. -/
theorem decodeFirst_eq_reservedEncoding_iff {w : Word} :
    decodeFirst true w = .error .reservedEncoding ↔
      ∃ row ∈ opcodeRows, w &&& 0xF800 = row.pattern ∧ w &&& row.mask ≠ row.pattern := by
  constructor
  · intro h
    have hlt : (opField w).toNat < 0x17 := by
      by_contra hge
      rw [decodeFirst_of_opField_ge (Nat.le_of_not_lt hge)] at h
      cases h
    obtain ⟨row, hrow, hw⟩ := exists_row_of_opField_lt hlt
    exact ⟨row, hrow, hw, (decodeFirst_eq_reservedEncoding_of_row hrow hw).mp h⟩
  · rintro ⟨row, hrow, hw, hmask⟩
    exact (decodeFirst_eq_reservedEncoding_of_row hrow hw).mpr hmask

end Sys2Proof

namespace Sys2Proof.Machine

/-! ### The fetch of an instruction and the execute phase behind it -/

/-- The rest of the fetch: the instruction with the word behind its first one, and pc past its words (R11, R86). -/
theorem fetchSecond_setPc (f : FirstWord) (s : State) :
    fetchSecond f (s.setPc (s.pc + 2)) =
      (f.withSecond (s.readWord (s.pc + 2)), s.setPc (s.pc + BitVec.ofNat 16 (2 * f.words))) := by
  cases f with
  | complete i => rfl
  | loadValue | callTarget =>
    have hpc : s.pc + 2 + 2 = s.pc + 4 := by rw [BitVec.add_assoc]; rfl
    simp only [fetchSecond, State.setPc_pc, State.setPc_readWord, hpc]
    rfl

theorem fetch_of_decodeFirst {s : State} {f : FirstWord} (hrun : s.halted = false)
    (hdecode : decodeFirst true (s.readWord s.pc) = .ok f) :
    fetch s = .next (f.withSecond (s.readWord (s.pc + 2)), s.setPc (s.pc + BitVec.ofNat 16 (2 * f.words))) := by
  rw [fetch_eq, hrun, hdecode, ← fetchSecond_setPc]
  rfl

/-- The step of a running machine whose word at pc is an instruction's, of one word or of two (R86, R230). -/
theorem step_of_decodeFirst {s : State} {f : FirstWord} (hrun : s.halted = false)
    (hdecode : decodeFirst true (s.readWord s.pc) = .ok f) :
    step s = exec (f.withSecond (s.readWord (s.pc + 2))) (s.setPc (s.pc + BitVec.ofNat 16 (2 * f.words))) :=
  step_of_fetch (fetch_of_decodeFirst hrun hdecode)

/-- What a fetch that answers was, said once: a running machine, a first word that decodes, and pc past its words. -/
theorem exists_decodeFirst_of_fetch {s s' : State} {i : Instr} (h : fetch s = .next (i, s')) :
    s.halted = false ∧ ∃ f, decodeFirst true (s.readWord s.pc) = .ok f ∧
      i = f.withSecond (s.readWord (s.pc + 2)) ∧ s' = s.setPc (s.pc + BitVec.ofNat 16 (2 * f.words)) := by
  obtain ⟨hrun, f, hdecode, hfetched⟩ := fetch_next h
  rw [fetchSecond_setPc] at hfetched
  obtain ⟨hi, hs'⟩ := Prod.mk.inj hfetched
  exact ⟨hrun, f, hdecode, hi, hs'⟩

theorem step_of_halted {s : State} (h : s.halted = true) : step s = .refused .processorHalted := by
  rw [step_eq, fetch_eq, if_pos h]

theorem step_of_decodeFirst_error {s : State} {e : WordError} (hrun : s.halted = false)
    (hdecode : decodeFirst true (s.readWord s.pc) = .error e) :
    step s = .fault (faultOf s.pc (s.readWord s.pc) e) := by
  rw [step_eq, fetch_eq, hrun, hdecode]
  rfl

/-- No meaning stops: each answers a next state from every state (R190). -/
theorem exec_total (i : Instr) (s : State) : ∃ t, exec i s = .next t := by
  cases i <;> exact ⟨_, rfl⟩

/-- The faults of the step, said once: those that a running machine's first word raises (R193). -/
theorem step_eq_fault_iff {s : State} {r : Fault} :
    step s = .fault r ↔ s.halted = false ∧
      ∃ e, decodeFirst true (s.readWord s.pc) = .error e ∧ r = faultOf s.pc (s.readWord s.pc) e := by
  cases hhalted : s.halted with
  | true => simp [step_of_halted hhalted]
  | false =>
    cases hdecode : decodeFirst true (s.readWord s.pc) with
    | ok f =>
      obtain ⟨t, ht⟩ := exec_total (f.withSecond (s.readWord (s.pc + 2))) (s.setPc (s.pc + BitVec.ofNat 16 (2 * f.words)))
      rw [step_of_decodeFirst hhalted hdecode, ht]
      simp
    | error e => simp [step_of_decodeFirst_error hhalted hdecode, eq_comm]

/-- The first word that a running machine steps from is an instruction's, and every instruction's word lets it step. -/
theorem step_eq_next_iff_decodeFirst {s : State} (hrun : s.halted = false) :
    (∃ t, step s = .next t) ↔ ∃ f, decodeFirst true (s.readWord s.pc) = .ok f := by
  constructor
  · rintro ⟨t, ht⟩
    obtain ⟨i, s', hfetch, -⟩ := step_next ht
    obtain ⟨-, f, hdecode, -, -⟩ := exists_decodeFirst_of_fetch hfetch
    exact ⟨f, hdecode⟩
  · rintro ⟨f, hdecode⟩
    rw [step_of_decodeFirst hrun hdecode]
    exact exec_total _ _

/-- Settles O42: no meaning stops, and the first word of a running machine decides between a next state and a fault. -/
theorem stepEndsOneOfThreeWays : Obligations.StepEndsOneOfThreeWays := by
  refine ⟨exec_total, fun s => ⟨step_of_halted, step_eq_next_iff_decodeFirst, fun hrun => ?_⟩⟩
  constructor
  · rintro ⟨r, hr⟩
    obtain ⟨-, e, he, -⟩ := step_eq_fault_iff.mp hr
    exact ⟨e, he⟩
  · rintro ⟨e, he⟩
    exact ⟨_, step_of_decodeFirst_error hrun he⟩

theorem faultOf_eq_illegalOpcode_iff {pc w pc0 w1 : Word} {e : WordError} :
    .illegalOpcode pc0 w1 = faultOf pc w e ↔ pc0 = pc ∧ w1 = w ∧ e = .illegalOpcode := by
  cases e <;> simp [faultOf]

theorem faultOf_eq_reservedEncoding_iff {pc w pc0 w1 : Word} {e : WordError} :
    .reservedEncoding pc0 w1 = faultOf pc w e ↔ pc0 = pc ∧ w1 = w ∧ e = .reservedEncoding := by
  cases e <;> simp [faultOf]

/-- Settles O43: the fault names the decoder's answer, which is IllegalOpcode for the OPs 0x17 to 0x1F. -/
theorem illegalOpcodeExactlyFromB800 : Obligations.IllegalOpcodeExactlyFromB800 := by
  intro s pc0 w1
  have hop (w : Word) : 0x17 ≤ (opField w).toNat ↔ 0xB800 ≤ w.toNat := by
    rw [opField_toNat]
    omega
  simp only [step_eq_fault_iff, faultOf_eq_illegalOpcode_iff]
  constructor
  · rintro ⟨hrun, e, he, hpc, rfl, rfl⟩
    exact ⟨hrun, hpc, rfl, (hop _).mp (decodeFirst_eq_illegalOpcode_iff.mp he)⟩
  · rintro ⟨hrun, hpc, rfl, hge⟩
    exact ⟨hrun, _, decodeFirst_eq_illegalOpcode_iff.mpr ((hop _).mpr hge), hpc, rfl, rfl⟩

/-- Settles O44: the fault names the decoder's answer, which is ReservedEncoding for a row's word beyond its mask. -/
theorem reservedEncodingExactlyOnUnusedBits : Obligations.ReservedEncodingExactlyOnUnusedBits := by
  intro s pc0 w1
  simp only [step_eq_fault_iff, faultOf_eq_reservedEncoding_iff]
  constructor
  · rintro ⟨hrun, e, he, hpc, rfl, rfl⟩
    exact ⟨hrun, hpc, rfl, decodeFirst_eq_reservedEncoding_iff.mp he⟩
  · rintro ⟨hrun, hpc, rfl, hrow⟩
    exact ⟨hrun, _, decodeFirst_eq_reservedEncoding_iff.mpr hrow, hpc, rfl, rfl⟩

/-! ### The bytes at pc -/

theorem State.bytesAtPc_eq (s : State) : s.bytesAtPc = bytesOfWords [s.readWord s.pc, s.readWord (s.pc + 2)] := by
  have hhigh : s.pc + 2 + 1 = s.pc + 3 := by rw [BitVec.add_assoc]; rfl
  simp only [State.bytesAtPc, bytesOfWords_cons, bytesOfWords_nil, State.readWord, Memory.readWord, lowByte_wordOfBytes,
    highByte_wordOfBytes, hhigh]
  rfl

/-- Bytes that begin alike and are those of words are those of the same words. -/
theorem word_eq_of_bytes_eq {v w : Word} {bs cs : List Byte}
    (h : lowByte v :: highByte v :: bs = lowByte w :: highByte w :: cs) : v = w ∧ bs = cs := by
  obtain ⟨hlow, h⟩ := List.cons.inj h
  obtain ⟨hhigh, hrest⟩ := List.cons.inj h
  refine ⟨?_, hrest⟩
  rw [← wordOfBytes_high_low v, hlow, hhigh, wordOfBytes_high_low]

/-- Settles O40: the decoder took the word at pc, and the word behind it where the instruction has two. -/
theorem stepRunsTheDecodedInstruction : Obligations.StepRunsTheDecodedInstruction := by
  intro s i rest hrun hdecode
  obtain ⟨w, w2, f, hf, rfl, hbytes⟩ := decodeBytesWith_eq_ok_iff.mp hdecode
  rw [State.bytesAtPc_eq] at hbytes
  obtain ⟨rfl, htail⟩ := word_eq_of_bytes_eq hbytes
  have hsecond : f.withSecond (s.readWord (s.pc + 2)) = f.withSecond w2 := by
    cases f with
    | complete i => rfl
    | loadValue | callTarget =>
      obtain ⟨rfl, -⟩ := word_eq_of_bytes_eq htail
      rfl
  rw [step_of_decodeFirst hrun hf, hsecond, words_withSecond hf]

end Sys2Proof.Machine


/-! PROOFS. The rules over all instructions: what an instruction leaves in the general registers, SP, PC, FLAGS, `halted` and
memory (spec/10_state.md R23, R25, R29, R32, R33, spec/20_memory.md R66), each from one case split over the instructions. -/

namespace Sys2Proof.Machine

/-! ### A conditional jump leaves all but pc (R150) -/

@[simp] theorem jumpIf_sp (c : Bool) (a : Word) (s : State) : (jumpIf c a s).sp = s.sp := by
  rw [jumpIf_eq, State.setPc_sp]

@[simp] theorem jumpIf_halted (c : Bool) (a : Word) (s : State) : (jumpIf c a s).halted = s.halted := by
  rw [jumpIf_eq, State.setPc_halted]

@[simp] theorem jumpIf_mem (c : Bool) (a : Word) (s : State) : (jumpIf c a s).mem = s.mem := by
  rw [jumpIf_eq, State.setPc_mem]

@[simp] theorem jumpIf_reg (c : Bool) (a : Word) (s : State) (r : Reg) : (jumpIf c a s).reg r = s.reg r := by
  rw [jumpIf_eq, State.setPc_reg]

section Exec
variable {i : Instr} {s t : State} (h : exec i s = .next t)
include h

/-! ### One case split for each component of the state -/

/-- The frame of the general registers (R23). -/
theorem exec_reg_of_destination_ne {r : Reg} (hr : destination i ≠ some r) : t.reg r = s.reg r := by
  have hne {rd : Reg} (hrd : some rd ≠ some r) : r ≠ rd := fun e => hrd (congrArg some e.symm)
  cases i with
  | load rd | mov rd | ldr rd | pop rd =>
    obtain rfl := Host.Outcome.next.inj h
    exact (State.onlyRegister_setReg s rd _).1 r (hne hr)
  | add rd | sub rd | and rd | or rd | xor rd | not rd | shl rd | shr rd =>
    obtain rfl := Host.Outcome.next.inj h
    exact (State.onlyResult_setResult s rd _ _).1 r (hne hr)
  | jz | jnz | jn =>
    obtain rfl := Host.Outcome.next.inj h
    exact jumpIf_reg _ _ _ r
  | nop | cmp | jmp | str | push | call | ret | halt =>
    obtain rfl := Host.Outcome.next.inj h
    rfl

/-- SP after an instruction (R33). -/
theorem exec_sp : t.sp = spAfter s.sp i := by
  cases i with
  | jz | jnz | jn =>
    obtain rfl := Host.Outcome.next.inj h
    exact jumpIf_sp _ _ _
  | nop | load | mov | add | sub | and | or | xor | not | shl | shr | cmp | jmp | ldr | str | push | pop | call | ret | halt =>
    obtain rfl := Host.Outcome.next.inj h
    rfl

/-- Memory after an instruction: as it was, or with one word written where the instruction stores (R66). -/
theorem exec_mem : (storeAddress s i = none ∧ t.mem = s.mem) ∨
    ∃ a v, storeAddress s i = some a ∧ t.mem = s.mem.writeWord a v := by
  cases i with
  | str | push | call =>
    obtain rfl := Host.Outcome.next.inj h
    exact .inr ⟨_, _, rfl, rfl⟩
  | jz | jnz | jn =>
    obtain rfl := Host.Outcome.next.inj h
    exact .inl ⟨rfl, jumpIf_mem _ _ _⟩
  | nop | load | mov | add | sub | and | or | xor | not | shl | shr | cmp | jmp | ldr | pop | ret | halt =>
    obtain rfl := Host.Outcome.next.inj h
    exact .inl ⟨rfl, rfl⟩

/-- HALT sets `halted`, and no other instruction touches it (R33). -/
theorem exec_halted : t.halted = true ↔ i = .halt ∨ s.halted = true := by
  cases i with
  | halt =>
    obtain rfl := Host.Outcome.next.inj h
    exact ⟨fun _ => .inl rfl, fun _ => rfl⟩
  | jz | jnz | jn =>
    obtain rfl := Host.Outcome.next.inj h
    rw [jumpIf_halted]
    exact ⟨.inr, fun h => h.resolve_left nofun⟩
  | nop | load | mov | add | sub | and | or | xor | not | shl | shr | cmp | jmp | ldr | str | push | pop | call | ret =>
    obtain rfl := Host.Outcome.next.inj h
    exact ⟨.inr, fun h => h.resolve_left nofun⟩

/-- No instruction writes the reserved bits of FLAGS (R32). -/
theorem exec_reserved : t.flags.reserved = s.flags.reserved := by
  cases hi : writesFlags i with
  | false => rw [exec_flags_of_not_writesFlags h hi]
  | true =>
    obtain ⟨r, o, hwrite⟩ := exec_setFlags_of_writesFlags hi s
    obtain ⟨u, hu, hflags⟩ := hwrite s.flags
    obtain rfl : t = u := Host.Outcome.next.inj (h.symm.trans hu)
    rw [hflags, Flags.result_reserved]

end Exec

/-- PC after the execute phase of an instruction at `s.pc` (R25). -/
theorem exec_pc {i : Instr} {s t : State}
    (h : exec i (s.setPc (s.pc + BitVec.ofNat 16 (2 * i.words))) = .next t) : t.pc = pcAfter s i := by
  cases i with
  | jz | jn =>
    obtain rfl := Host.Outcome.next.inj h
    rw [jumpIf_eq]
    rfl
  | jnz =>
    obtain rfl := Host.Outcome.next.inj h
    rw [jumpIf_eq, State.setPc_pc, State.setPc_flags, pcAfter]
    cases s.flags.z <;> rfl
  | nop | load | mov | add | sub | and | or | xor | not | shl | shr | cmp | jmp | ldr | str | push | pop | call | ret | halt =>
    obtain rfl := Host.Outcome.next.inj h
    rfl

/-- What is fetched is well-formed, and is executed with pc past its words (R11, R92). -/
theorem fetch_wellFormed {s s' : State} {i : Instr} (h : fetch s = .next (i, s')) :
    i.wellFormed = true ∧ s' = s.setPc (s.pc + BitVec.ofNat 16 (2 * i.words)) := by
  obtain ⟨-, f, hdecode, rfl, rfl⟩ := exists_decodeFirst_of_fetch h
  rw [words_withSecond hdecode]
  exact ⟨(encode_of_decodeFirst hdecode _).2, rfl⟩

/-! ### The statements -/

/-- Settles O50: the frame of the general registers. -/
theorem onlyTheDestinationIsWritten : Obligations.OnlyTheDestinationIsWritten :=
  fun _ _ _ _ h hr => exec_reg_of_destination_ne h hr

/-- Settles O51: SP, instruction by instruction. -/
theorem stackPointerMovesByTwo : Obligations.StackPointerMovesByTwo := fun _ _ _ => exec_sp

/-- Settles O52: memory is as it was or has one word written, whose frame is that of a word write. -/
theorem memoryChangesOnlyWhereStored : Obligations.MemoryChangesOnlyWhereStored := by
  intro i s t h
  rcases exec_mem h with ⟨hnone, hmem⟩ | ⟨a, v, hsome, hmem⟩
  · refine ⟨fun _ b => congrArg (Memory.readByte · b) hmem, fun a ha => ?_⟩
    rw [hnone] at ha
    cases ha
  · rw [hsome]
    refine ⟨nofun, fun a' ha' b hb hb' => ?_⟩
    obtain rfl := Option.some.inj ha'
    calc t.readByte b
      _ = (s.writeWord a v).readByte b := congrArg (Memory.readByte · b) hmem
      _ = s.readByte b := s.sameMemoryBut_writeWord a v b hb hb'

/-- Settles O54: a step writes at most one word, and the write of a word keeps the canonical form. -/
theorem stepKeepsMemoryCanonical : Obligations.StepKeepsMemoryCanonical := by
  intro s t hs h
  obtain ⟨i, s', hfetch, hexec⟩ := step_next h
  obtain ⟨p, rfl⟩ := fetch_next_setPc hfetch
  rw [State.Canonical]
  rcases exec_mem hexec with ⟨-, hmem⟩ | ⟨a, v, -, hmem⟩
  · rw [hmem]
    exact hs
  · rw [hmem]
    exact Memory.wf_writeWord hs a v

/-- Settles O53: a machine that fetches is not halted, so HALT is left as the only cause. -/
theorem onlyHaltHalts : Obligations.OnlyHaltHalts := by
  intro s s' t i hfetch hstep
  obtain ⟨hrun, -⟩ := fetch_next hfetch
  obtain ⟨p, rfl⟩ := fetch_next_setPc hfetch
  rw [step_of_fetch hfetch] at hstep
  rw [exec_halted hstep, State.setPc_halted, hrun]
  simp

/-- Settles O49: the fetch leaves FLAGS, and no meaning writes its reserved bits. -/
theorem stepKeepsReservedFlags : Obligations.StepKeepsReservedFlags := by
  intro s t h
  obtain ⟨i, s', hfetch, hexec⟩ := step_next h
  obtain ⟨p, rfl⟩ := fetch_next_setPc hfetch
  rw [exec_reserved hexec, State.setPc_flags]

/-- Settles O48: the flags written are those of one result, whatever FLAGS held. -/
theorem writtenFlagsAreNotSticky : Obligations.WrittenFlagsAreNotSticky := by
  intro i s f hi
  obtain ⟨r, o, hwrite⟩ := exec_setFlags_of_writesFlags hi s
  obtain ⟨t, ht, htflags⟩ := hwrite s.flags
  obtain ⟨u, hu, huflags⟩ := hwrite f
  refine ⟨t, u, ht, hu, ?_⟩
  rw [htflags, huflags]
  exact ⟨rfl, rfl, rfl⟩

/-- Settles O45: a fetched instruction is executed with pc past its words. -/
theorem pcAfterEveryStep : Obligations.PcAfterEveryStep := by
  intro s s' i hfetch
  obtain ⟨t, ht⟩ := exec_total i s'
  refine ⟨t, (step_of_fetch hfetch).trans ht, ?_⟩
  obtain ⟨-, rfl⟩ := fetch_wellFormed hfetch
  exact exec_pc ht

/-- Settles O46: pc after a jump is its address, which fits 11 bits in whatever is fetched, or that of the next instruction. -/
theorem jumpsReachOnlyBelow2048 : Obligations.JumpsReachOnlyBelow2048 := by
  intro s s' t i address hfetch hstep
  obtain ⟨u, hu, hpc⟩ := pcAfterEveryStep s s' i hfetch
  obtain rfl := Host.Outcome.next.inj (hstep.symm.trans hu)
  obtain ⟨hwf, -⟩ := fetch_wellFormed hfetch
  rw [hpc]
  constructor
  · rintro rfl
    exact of_decide_eq_true hwf
  · have hbelow : jumpAddressFits address = true → address.toNat ≤ 0x07FF := of_decide_eq_true
    rintro (rfl | rfl | rfl)
    · rw [pcAfter]
      split
      · exact .inr (hbelow hwf)
      · exact .inl rfl
    · rw [pcAfter]
      split
      · exact .inl rfl
      · exact .inr (hbelow hwf)
    · rw [pcAfter]
      split
      · exact .inr (hbelow hwf)
      · exact .inl rfl

end Sys2Proof.Machine


/-! PROOFS. Runs (spec/10_state.md R31, spec/60_exceptions.md R193, spec/70_reset_and_hazards.md R231): states that differ in O
alone run alike, a run completes at HALT, and where it ends is one state. -/

namespace Sys2Proof.Machine

/-! ### No instruction reads O (R31) -/

theorem AgreeButOverflow.exists_setFlags {s s' : State} (h : AgreeButOverflow s s') :
    ∃ f : Flags, f.z = s.flags.z ∧ f.n = s.flags.n ∧ s' = s.setFlags f := by
  obtain ⟨hregs, hpc, hsp, hhalted, hmem, hz, hn⟩ := h
  refine ⟨s'.flags, hz, hn, ?_⟩
  obtain ⟨regs, pc, sp, flags, halted, mem⟩ := s'
  subst hregs hpc hsp hhalted hmem
  rfl

theorem AgreeButOverflow.halted_eq {s s' : State} (h : AgreeButOverflow s s') : s'.halted = s.halted := by
  obtain ⟨-, -, -, hhalted, -⟩ := h
  exact hhalted

/-- The meanings do not tell two states apart that differ only in O and the reserved bits. -/
theorem exec_agreeButOverflow {i : Instr} {s s' t : State} (hagree : AgreeButOverflow s s') (h : exec i s = .next t) :
    ∃ t', exec i s' = .next t' ∧ AgreeButOverflow t t' := by
  obtain ⟨f, hz, hn, rfl⟩ := hagree.exists_setFlags
  cases i with
  | add | sub | and | or | xor | not | shl | shr | cmp =>
    obtain rfl := Host.Outcome.next.inj h
    exact ⟨_, rfl, rfl, rfl, rfl, rfl, rfl, rfl, rfl⟩
  | jz | jnz | jn =>
    obtain rfl := Host.Outcome.next.inj h
    refine ⟨_, rfl, ?_⟩
    rw [jumpIf_eq, jumpIf_eq, State.setFlags_flags]
    simp only [hz, hn]
    exact ⟨rfl, rfl, rfl, rfl, rfl, hz, hn⟩
  | nop | load | mov | jmp | ldr | str | push | pop | call | ret | halt =>
    obtain rfl := Host.Outcome.next.inj h
    exact ⟨_, rfl, rfl, rfl, rfl, rfl, rfl, hz, hn⟩

/-- Nor does a step: the fetch reads no flag. -/
theorem step_agreeButOverflow {s s' t : State} (hagree : AgreeButOverflow s s') (h : step s = .next t) :
    ∃ t', step s' = .next t' ∧ AgreeButOverflow t t' := by
  obtain ⟨i, u, hfetch, hexec⟩ := step_next h
  obtain ⟨hrun, g, hdecode, rfl, rfl⟩ := exists_decodeFirst_of_fetch hfetch
  obtain ⟨f, hz, hn, rfl⟩ := hagree.exists_setFlags
  rw [step_of_decodeFirst (s := s.setFlags f) hrun hdecode]
  have hfetched (p : Word) : AgreeButOverflow (s.setPc p) ((s.setFlags f).setPc p) :=
    ⟨rfl, rfl, rfl, rfl, rfl, hz, hn⟩
  exact exec_agreeButOverflow (hfetched _) hexec

/-- Nor does a fault. -/
theorem step_fault_agreeButOverflow {s s' : State} {r : Fault} (hagree : AgreeButOverflow s s') (h : step s = .fault r) :
    step s' = .fault r := by
  obtain ⟨f, -, -, rfl⟩ := hagree.exists_setFlags
  have hcause := step_eq_fault_iff.mp h
  exact step_eq_fault_iff.mpr hcause

/-- Nor does a run: each of its steps is matched. -/
theorem reaches_agreeButOverflow {s s' t : State} (hagree : AgreeButOverflow s s') (h : Reaches s t) :
    ∃ t', Reaches s' t' ∧ AgreeButOverflow t t' := by
  induction h with
  | refl => exact ⟨s', .refl s', hagree⟩
  | tail _ hstep ih =>
    obtain ⟨t', hreach, hagree'⟩ := ih
    obtain ⟨u', hstep', hagree''⟩ := step_agreeButOverflow hagree' hstep
    exact ⟨u', .tail hreach hstep', hagree''⟩

/-- Settles O55: a simulation of steps, and with it of runs and of how they end. -/
theorem overflowIsNeverObserved : Obligations.OverflowIsNeverObserved := by
  intro s s' hagree
  refine ⟨fun t => step_agreeButOverflow hagree, fun t => reaches_agreeButOverflow hagree, ?completed, ?faulted⟩
  case completed =>
    rintro t ⟨hreach, hhalted⟩
    obtain ⟨t', hreach', hagree'⟩ := reaches_agreeButOverflow hagree hreach
    exact ⟨t', ⟨hreach', hagree'.halted_eq.trans hhalted⟩, hagree'⟩
  case faulted =>
    rintro f ⟨t, hreach, hfault⟩
    obtain ⟨t', hreach', hagree'⟩ := reaches_agreeButOverflow hagree hreach
    exact ⟨t', hreach', step_fault_agreeButOverflow hagree' hfault⟩

/-! ### A run completes at HALT (R231) -/

/-- The first word of HALT is 0xB000 and no other. -/
theorem eq_of_decodeFirst_halt {w : Word} (h : decodeFirst true w = .ok (.complete .halt)) : w = 0xB000 := by
  obtain ⟨hwords, -⟩ := encode_of_decodeFirst h 0
  exact (List.cons.inj hwords).1.symm

/-- The step that halts the machine is the one that finds HALT at pc, and this is what it leaves. -/
theorem step_next_halted_iff {s t : State} (hrun : s.halted = false) :
    step s = .next t ∧ t.halted = true ↔
      s.readWord s.pc = 0xB000 ∧ t = (s.setPc (s.pc + 2)).setHalted true := by
  have hhalt (hword : s.readWord s.pc = 0xB000) : step s = exec .halt (s.setPc (s.pc + 2)) := by
    apply step_of_decodeFirst_complete hrun
    rw [hword]
    exact decodeFirst_of_encode (i := .halt) rfl rfl true
  constructor
  · rintro ⟨hstep, hhalted⟩
    obtain ⟨i, s', hfetch, hexec⟩ := step_next hstep
    obtain rfl := (onlyHaltHalts s s' t i hfetch hstep).mp hhalted
    obtain ⟨-, f, hdecode, hf, -⟩ := exists_decodeFirst_of_fetch hfetch
    have hcomplete : f = .complete .halt := by
      cases f with
      | complete => exact congrArg _ hf.symm
      | loadValue | callTarget => cases hf
    have hword := eq_of_decodeFirst_halt (hcomplete ▸ hdecode)
    rw [hhalt hword] at hstep
    exact ⟨hword, (Host.Outcome.next.inj hstep).symm⟩
  · rintro ⟨hword, rfl⟩
    exact ⟨hhalt hword, rfl⟩

/-- Settles O56: the last step of a run that completes is the one that halts the machine. -/
theorem runCompletesExactlyAtHalt : Obligations.RunCompletesExactlyAtHalt := by
  intro s t hs
  constructor
  · rintro ⟨hreach, hhalted⟩
    cases hreach with
    | refl =>
      rw [hs] at hhalted
      cases hhalted
    | @tail u _ hreach hstep =>
      obtain ⟨_, _, hfetch, -⟩ := step_next hstep
      obtain ⟨hrun, -⟩ := fetch_next hfetch
      exact ⟨u, hreach, hrun, (step_next_halted_iff hrun).mp ⟨hstep, hhalted⟩⟩
  · rintro ⟨u, hreach, hrun, hhalt⟩
    obtain ⟨hstep, hhalted⟩ := (step_next_halted_iff hrun).mpr hhalt
    exact ⟨.tail hreach hstep, hhalted⟩

/-! ### A completed run has one end (R193, R230) -/

/-- A run is empty or begins with a step. -/
theorem ReachesBy.eq_or_head {machine : State → Host.Outcome State Fault Refusal} {s t : State} (h : ReachesBy machine s t) :
    s = t ∨ ∃ u, machine s = .next u ∧ ReachesBy machine u t := by
  induction h with
  | refl => exact .inl rfl
  | @tail t v _ hstep ih =>
    rcases ih with rfl | ⟨u, hu, hreach⟩
    · exact .inr ⟨v, hstep, .refl v⟩
    · exact .inr ⟨u, hu, .tail hreach hstep⟩

/-- A halted state reaches itself alone. -/
theorem eq_of_reaches_of_halted {s t : State} (hhalted : s.halted = true) (h : Reaches s t) : s = t := by
  rcases ReachesBy.eq_or_head h with rfl | ⟨u, hu, -⟩
  · rfl
  · rw [step_of_halted hhalted] at hu
    cases hu

/-- Every state of a run that completes reaches its end, for the machine has no choice. -/
theorem reaches_end_of_completed {s t u : State} (hend : Completed s t) (h : Reaches s u) : Reaches u t := by
  obtain ⟨hreach, hhalted⟩ := hend
  induction h with
  | refl => exact hreach
  | @tail v w _ hstep ih =>
    rcases ReachesBy.eq_or_head ih with rfl | ⟨x, hx, hrest⟩
    · rw [step_of_halted hhalted] at hstep
      cases hstep
    · obtain rfl := Host.Outcome.next.inj (hstep.symm.trans hx)
      exact hrest

/-- Settles O57: whatever state the run reaches leads on to its end, so it is neither another end nor a fault. -/
theorem completedRunIsUniqueAndFaultFree : Obligations.CompletedRunIsUniqueAndFaultFree := by
  intro s t hend
  constructor
  · rintro t' ⟨hreach, hhalted⟩
    exact eq_of_reaches_of_halted hhalted (reaches_end_of_completed hend hreach)
  · rintro f ⟨u, hreach, hfault⟩
    rcases ReachesBy.eq_or_head (reaches_end_of_completed hend hreach) with rfl | ⟨v, hv, -⟩
    · rw [step_of_halted hend.2] at hfault
      cases hfault
    · rw [hv] at hfault
      cases hfault

end Sys2Proof.Machine


/-! PROOFS. Single instructions: the two of two words and HALT (spec/40_data_movement.md, spec/45_subroutine.md,
spec/47_system.md), O and the flags of CMP as statements about signed numbers (spec/41_arithmetic.md R120, R124), then the
logical and shift instructions (spec/42_logical.md, spec/43_shift.md). -/

namespace Sys2Proof

/-- A Format R word of one register, as the number that it makes with the opcode's (R80). -/
theorem formatR_register (op : BitVec 5) (rd : Reg) :
    formatR op rd.field 0#3 0#5 = BitVec.ofNat 16 (op.toNat * 2048 + rd.number * 256) := by
  have hregisters := formatR_registers op rd .r0
  rw [show Reg.r0.number * 32 = 0 from rfl, Nat.add_zero] at hregisters
  exact hregisters

/-- A Format R word of one register and a count that fits its field (R80, R84). -/
theorem formatR_shift (op : BitVec 5) (rd : Reg) {count : Nat} (h : count ≤ 31) :
    formatR op rd.field 0#3 (BitVec.ofNat 5 count) = BitVec.ofNat 16 (op.toNat * 2048 + rd.number * 256 + count) := by
  have hcount := ofNat_toNat_of_shiftCountFits (decide_eq_true h)
  calc formatR op rd.field 0#3 (BitVec.ofNat 5 count)
    _ = BitVec.ofNat 16 (formatR op rd.field 0#3 (BitVec.ofNat 5 count)).toNat := by rw [BitVec.ofNat_toNat, BitVec.setWidth_eq]
    _ = BitVec.ofNat 16 (op.toNat * 2048 + rd.number * 256 + count) := by
      rw [formatR_toNat, Reg.field_toNat, hcount, BitVec.toNat_ofNat, Nat.zero_mod, Nat.zero_mul, Nat.add_zero]

theorem decodeFirst_load (strict : Bool) (rd : Reg) :
    decodeFirst strict (formatR 0x01 rd.field 0#3 0#5) = .ok (.loadValue rd) := by simp [decodeFirst]

theorem decodeFirst_call (strict : Bool) : decodeFirst strict (formatR 0x14 0#3 0#3 0#5) = .ok .callTarget := by
  simp [decodeFirst]

end Sys2Proof

namespace Sys2Proof.Machine

/-! ### LOAD, CALL and HALT -/

/-- A running machine executes a two-word instruction from its first word and the word behind it (R11, R86). -/
theorem encodedInTwoAs_of_decodeFirst {f : FirstWord} {w : Nat} (hf : decodeFirst true (BitVec.ofNat 16 w) = .ok f)
    (hwords : f.words = 2) : EncodedInTwoAs f.withSecond w := by
  intro s hrun hword
  rw [← hword] at hf
  rw [step_of_decodeFirst hrun hf, hwords]
  rfl

theorem exec_load (rd : Reg) (value : Word) (s : State) : exec (.load rd value) s = .next (s.setReg rd value) := rfl

theorem exec_call (address : Word) (s : State) : exec (.call address) s = .next ((s.pushWord s.pc).setPc address) := rfl

theorem exec_halt (s : State) : exec .halt s = .next (s.setHalted true) := rfl

/-- Settles O10: LOAD is one register write, of the word behind its first one. -/
theorem loadWritesTheSecondWord : Obligations.LoadWritesTheSecondWord := by
  refine ⟨fun rd value s => ?effect, fun rd => ?encoding, fun _ _ => rfl⟩
  case effect => exact ⟨_, exec_load rd value s, s.reg_setReg_same rd _, s.onlyRegister_setReg rd _⟩
  case encoding =>
    have hf := decodeFirst_load true rd
    rw [formatR_register] at hf
    exact encodedInTwoAs_of_decodeFirst hf rfl

/-- Settles O27: CALL is one push, of pc, and one write of pc, of the word behind its first one. -/
theorem callPushesReturnAddressAndGoes : Obligations.CallPushesReturnAddressAndGoes := by
  refine ⟨fun address s => ?effect, ?encoding, fun _ => rfl⟩
  case effect =>
    exact ⟨_, exec_call address s, s.pushWord_sp s.pc, s.holdsWord_pushWord s.pc, s.sameMemoryBut_pushWord s.pc,
      rfl, s.pushWord_reg s.pc, rfl, rfl⟩
  case encoding => exact encodedInTwoAs_of_decodeFirst (f := .callTarget) (w := 0xA000) (decodeFirst_call true) rfl

/-- Settles O31: HALT is one write of `halted`. -/
theorem haltSetsHaltedOnly : Obligations.HaltSetsHaltedOnly := by
  refine ⟨fun s => ?effect, ?encoding, rfl⟩
  case effect => exact ⟨_, exec_halt s, rfl, fun _ => rfl, rfl, rfl, rfl, fun _ => rfl⟩
  case encoding => exact encodedAs_of_encode rfl rfl

/-! ### Signed numbers (R120, R124) -/

theorem addOverflow_eq_saddOverflow (a b : Word) : addOverflow a b (a + b) = a.saddOverflow b := by
  rw [BitVec.saddOverflow_eq, addOverflow]
  cases (a + b).msb <;> cases a.msb <;> rfl

theorem subOverflow_eq_ssubOverflow (a b : Word) : subOverflow a b (a - b) = a.ssubOverflow b := by
  rw [BitVec.ssubOverflow_eq, subOverflow]
  cases (a - b).msb <;> cases a.msb <;> cases b.msb <;> rfl

/-- O of a sum: the true sum is out of the signed range. -/
theorem addOverflow_iff_signed (a b : Word) :
    addOverflow a b (a + b) = true ↔ a.signed + b.signed < -32768 ∨ 32767 < a.signed + b.signed := by
  rw [addOverflow_eq_saddOverflow, BitVec.saddOverflow, Bool.or_eq_true, decide_eq_true_iff, decide_eq_true_iff]
  simp only [Word.signed]
  omega

/-- O of a difference: the true difference is out of the signed range. -/
theorem subOverflow_iff_signed (a b : Word) :
    subOverflow a b (a - b) = true ↔ a.signed - b.signed < -32768 ∨ 32767 < a.signed - b.signed := by
  rw [subOverflow_eq_ssubOverflow, BitVec.ssubOverflow, Bool.or_eq_true, decide_eq_true_iff, decide_eq_true_iff]
  simp only [Word.signed]
  omega

/-- Settles O17: the O that ADD, SUB and CMP write, read as signed numbers. -/
theorem overflowIsSignedRange : Obligations.OverflowIsSignedRange := fun rd rs s =>
  ⟨⟨_, exec_add rd rs s, addOverflow_iff_signed _ _⟩, ⟨_, exec_sub rd rs s, subOverflow_iff_signed _ _⟩,
    ⟨_, exec_cmp rd rs s, subOverflow_iff_signed _ _⟩⟩

/-- The sign of a difference that does not overflow is that of the true difference. -/
theorem negativeFlag_sub_of_not_overflow {a b : Word} (h : subOverflow a b (a - b) = false) :
    negativeFlag (a - b) = true ↔ a.signed < b.signed := by
  rw [subOverflow_eq_ssubOverflow] at h
  rw [negativeFlag, BitVec.msb_eq_toInt, BitVec.toInt_sub_of_not_ssubOverflow (by simp [h]), decide_eq_true_iff, Word.signed,
    Word.signed]
  omega

/-- Operands of one sign do not overflow in a difference; operands of unlike sign are ordered by their signs, and O corrects the
sign of the difference (R124). -/
theorem signed_lt_iff (a b : Word) :
    a.signed < b.signed ↔ negativeFlag (a - b) ≠ subOverflow a b (a - b) := by
  cases ho : subOverflow a b (a - b) with
  | false => rw [← negativeFlag_sub_of_not_overflow ho, Bool.ne_false_iff]
  | true =>
    rw [subOverflow, Bool.and_eq_true, bne_iff_ne, bne_iff_ne] at ho
    obtain ⟨hunlike, hresult⟩ := ho
    have ha := BitVec.msb_eq_toInt (x := a)
    have hb := BitVec.msb_eq_toInt (x := b)
    rw [Ne, Bool.not_eq_true, negativeFlag, Word.signed, Word.signed]
    cases hsa : a.msb with
    | false =>
      have hsb : b.msb = true := by simpa [hsa] using hunlike
      have hsr : (a - b).msb = true := by simpa [hsa] using hresult
      have ha : 0 ≤ a.toInt := by simpa [hsa] using ha
      have hb : b.toInt < 0 := by simpa [hsb] using hb
      rw [hsr]
      exact iff_of_false (by omega) nofun
    | true =>
      have hsb : b.msb = false := by simpa [hsa] using hunlike
      have hsr : (a - b).msb = false := by simpa [hsa] using hresult
      have ha : a.toInt < 0 := by simpa [hsa] using ha
      have hb : 0 ≤ b.toInt := by simpa [hsb] using hb
      rw [hsr]
      exact iff_of_true (by omega) rfl

/-- Settles O18: Z is that of the difference, and N and O decide the signed order. -/
theorem cmpDecidesEqualityAndSignedOrder : Obligations.CmpDecidesEqualityAndSignedOrder := by
  intro rd rs s
  refine ⟨_, exec_cmp rd rs s, ?equality, signed_lt_iff _ _⟩
  case equality => exact (zeroFlag_eq_true_iff _).trans sub_eq_zero

/-! ### Logical instructions and shifts (R130, R140) -/

/-- An instruction that writes a result whose O is 0, said once: the result, its flags, and the frame. -/
theorem exists_next_of_exec_eq_setResult {i : Instr} {s : State} {rd : Reg} {r : Word}
    (hexec : exec i s = .next (s.setResult rd r logicalOverflow)) :
    ∃ t, exec i s = .next t ∧ t.reg rd = r ∧ FlagsOf (t.reg rd) False t ∧ OnlyResult rd s t :=
  have hclear : logicalOverflow = true ↔ False := by simp [logicalOverflow]
  ⟨_, hexec, s.reg_setResult_same rd r _, s.flagsOf_setResult rd r hclear, s.onlyResult_setResult rd r _⟩

theorem exec_and (rd rs : Reg) (s : State) :
    exec (.and rd rs) s = .next (s.setResult rd (s.reg rd &&& s.reg rs) logicalOverflow) := rfl

theorem exec_or (rd rs : Reg) (s : State) :
    exec (.or rd rs) s = .next (s.setResult rd (s.reg rd ||| s.reg rs) logicalOverflow) := rfl

theorem exec_xor (rd rs : Reg) (s : State) :
    exec (.xor rd rs) s = .next (s.setResult rd (s.reg rd ^^^ s.reg rs) logicalOverflow) := rfl

theorem exec_not (rd : Reg) (s : State) :
    exec (.not rd) s = .next (s.setResult rd (~~~s.reg rd) logicalOverflow) := rfl

theorem exec_shl (rd : Reg) (count : Nat) (s : State) :
    exec (.shl rd count) s = .next (s.setResult rd (shiftLeft (s.reg rd) count) logicalOverflow) := rfl

theorem exec_shr (rd : Reg) (count : Nat) (s : State) :
    exec (.shr rd count) s = .next (s.setResult rd (shiftRight (s.reg rd) count) logicalOverflow) := rfl

/-- Settles O19: each writes one result, whose bits are those of the operands combined. -/
theorem logicalWritesBitwiseResult : Obligations.LogicalWritesBitwiseResult := by
  refine ⟨fun rd rs s => ?and, fun rd rs s => ?or, fun rd rs s => ?xor, fun rd rs => ?andWord, fun rd rs => ?orWord,
    fun rd rs => ?xorWord⟩
  case and =>
    obtain ⟨t, ht, hr, hrest⟩ := exists_next_of_exec_eq_setResult (exec_and rd rs s)
    exact ⟨t, ht, fun k _ => hr ▸ BitVec.getLsbD_and, hrest⟩
  case or =>
    obtain ⟨t, ht, hr, hrest⟩ := exists_next_of_exec_eq_setResult (exec_or rd rs s)
    exact ⟨t, ht, fun k _ => hr ▸ BitVec.getLsbD_or, hrest⟩
  case xor =>
    obtain ⟨t, ht, hr, hrest⟩ := exists_next_of_exec_eq_setResult (exec_xor rd rs s)
    exact ⟨t, ht, fun k _ => hr ▸ BitVec.getLsbD_xor, hrest⟩
  case andWord => exact encodedAs_of_encode_registers (op := 0x05) rfl rfl
  case orWord => exact encodedAs_of_encode_registers (op := 0x06) rfl rfl
  case xorWord => exact encodedAs_of_encode_registers (op := 0x07) rfl rfl

/-- Settles O20: NOT writes one result, the complement as a number. -/
theorem notWritesTheComplement : Obligations.NotWritesTheComplement := by
  refine ⟨fun rd s => ?effect, fun rd => ?encoding⟩
  case effect =>
    obtain ⟨t, ht, hr, hrest⟩ := exists_next_of_exec_eq_setResult (exec_not rd s)
    exact ⟨t, ht, hr ▸ BitVec.toNat_not, hrest⟩
  case encoding => exact encodedAs_of_encode_register (op := 0x08) rfl rfl

/-- SHL's result as a number (R141). -/
theorem shiftLeft_toNat (a : Word) (n : Nat) :
    (shiftLeft a n).toNat = if 16 ≤ n then 0 else a.toNat * 2 ^ n % 65536 := by
  rw [shiftLeft]
  split
  · rfl
  · rw [BitVec.toNat_shiftLeft, Nat.shiftLeft_eq]

/-- SHR's result as a number (R142). -/
theorem shiftRight_toNat (a : Word) (n : Nat) :
    (shiftRight a n).toNat = if 16 ≤ n then 0 else a.toNat / 2 ^ n := by
  rw [shiftRight]
  split
  · rfl
  · rw [BitVec.toNat_ushiftRight, Nat.shiftRight_eq_div_pow]

/-- A shift to the right by one and more brings a zero into bit 15. -/
theorem eq_zero_of_negativeFlag_shiftRight {a : Word} {n : Nat} (h : negativeFlag (shiftRight a n) = true) : n = 0 := by
  rw [negativeFlag, shiftRight] at h
  split at h
  · cases h
  · rw [BitVec.msb_ushiftRight, Bool.and_eq_true] at h
    simpa using h.1

/-- An instruction whose encoding is a Format R word of one register and a count (R87). -/
theorem encodedAs_of_encode_shift {i : Instr} {op : BitVec 5} {rd : Reg} {count : Nat} (hfits : count ≤ 31)
    (hi : i.wellFormed = shiftCountFits count) (hw : encode i = [formatR op rd.field 0#3 (BitVec.ofNat 5 count)]) :
    EncodedAs i (op.toNat * 2048 + rd.number * 256 + count) := by
  rw [formatR_shift op rd hfits] at hw
  exact encodedAs_of_encode (hi.trans (decide_eq_true hfits)) hw

/-- Settles O21: SHL writes one result, the product as a number. -/
theorem shlMultipliesByPowerOfTwo : Obligations.ShlMultipliesByPowerOfTwo := by
  refine ⟨fun rd count s => ?effect, fun rd count hfits => ?encoding⟩
  case effect =>
    obtain ⟨t, ht, hr, hrest⟩ := exists_next_of_exec_eq_setResult (exec_shl rd count s)
    exact ⟨t, ht, hr ▸ shiftLeft_toNat _ _, hrest⟩
  case encoding => exact encodedAs_of_encode_shift (op := 0x09) hfits rfl rfl

/-- Settles O22: SHR writes one result, the quotient as a number. -/
theorem shrDividesByPowerOfTwo : Obligations.ShrDividesByPowerOfTwo := by
  refine ⟨fun rd count s => ?effect, fun rd count hfits => ?encoding⟩
  case effect =>
    obtain ⟨t, ht, hr, hflags, honly⟩ := exists_next_of_exec_eq_setResult (exec_shr rd count s)
    refine ⟨t, ht, hr ▸ shiftRight_toNat _ _, hflags, honly, fun hn => ?_⟩
    obtain ⟨-, hnegative, -⟩ := hflags
    rw [hr] at hnegative
    exact eq_zero_of_negativeFlag_shiftRight ((negativeFlag_eq_getLsbD _).trans (hnegative.mp hn))
  case encoding => exact encodedAs_of_encode_shift (op := 0x0A) hfits rfl rfl

end Sys2Proof.Machine


/-! PROOFS. Sequences of instructions (spec/45_subroutine.md R160 to R163, spec/46_stack.md R170 to R172, spec/20_memory.md R64):
what a push leaves above it, then the four sequences. -/

namespace Sys2Proof.Machine

/-! ### Word reads -/

/-- A word read depends on its two bytes alone (R52). -/
theorem Memory.readWord_congr {m m' : Memory} {a : Word} (hlow : m'.readByte a = m.readByte a)
    (hhigh : m'.readByte (a + 1) = m.readByte (a + 1)) : m'.readWord a = m.readWord a := by
  rw [Memory.readWord, Memory.readWord, hlow, hhigh]

theorem State.readWord_congr {s t : State} {a : Word} (hlow : t.readByte a = s.readByte a)
    (hhigh : t.readByte (a + 1) = s.readByte (a + 1)) : t.readWord a = s.readWord a :=
  Memory.readWord_congr hlow hhigh

/-- The frame of a word write for words: a word that shares no byte with the one written. -/
theorem State.readWord_writeWord_other {s : State} {a b v : Word} (h : b ≠ a) (hbelow : b + 1 ≠ a) (habove : b ≠ a + 1) :
    (s.writeWord a v).readWord b = s.readWord b := by
  have hhigh : b + 1 ≠ a + 1 := by bv_omega
  exact State.readWord_congr (State.readByte_writeWord_other h habove) (State.readByte_writeWord_other hbelow hhigh)

/-- A push leaves the word that was on top of the stack where it was. -/
theorem State.readWord_pushWord_sp (s : State) (v : Word) : (s.pushWord v).readWord s.sp = s.topWord := by
  rw [State.pushWord_eq_writeWord, pushAddress,
    State.readWord_writeWord_other (by bv_omega) (by bv_omega) (by bv_omega)]
  rfl

/-! ### Push and pop -/

/-- POP of the register just pushed: registers, sp and flags are as before the push, and the stack shows the word it showed. -/
theorem exec_pop_pushWord (q : Reg) (s : State) :
    ∃ t, exec (.pop q) (s.pushWord (s.reg q)) = .next t ∧ SameRegs s t ∧ t.sp = s.sp ∧ t.flags = s.flags ∧
      t.topWord = s.topWord := by
  have hsp : s.sp - 2 + 2 = s.sp := BitVec.sub_add_cancel _ _
  refine ⟨_, exec_pop q _, fun r => ?regs, hsp, rfl, ?top⟩
  case regs =>
    rw [State.dropWord_reg, State.reg_setReg, State.topWord_pushWord, State.pushWord_reg]
    split
    · next h => rw [h]
    · rfl
  case top =>
    rw [← State.readWord_pushWord_sp s (s.reg q), State.topWord, State.dropWord_sp, State.setReg_sp, State.pushWord_sp, hsp]
    rfl

/-- Settles O32: the inner pair leaves the stack as the outer push did. -/
theorem pushPopInReverseRestores : Obligations.PushPopInReverseRestores := by
  intro r q s
  obtain ⟨s3, hpop, hregs, hsp, hflags, htop⟩ := exec_pop_pushWord q (s.pushWord (s.reg r))
  refine ⟨_, _, s3, _, exec_push r s, exec_push q _, hpop, exec_pop r s3, fun x => ?regs, ?sp, hflags⟩
  case regs =>
    rw [State.dropWord_reg, State.reg_setReg, htop, State.topWord_pushWord, hregs, State.pushWord_reg]
    split
    · next h => rw [h]
    · rfl
  case sp =>
    rw [State.dropWord_sp, State.setReg_sp, hsp, State.pushWord_sp]
    exact BitVec.sub_add_cancel _ _

/-! ### Subroutines -/

/-- Settles O33: RET reads the word that CALL pushed, wherever the two bytes and sp are as CALL left them. -/
theorem retReturnsBehindTheCall : Obligations.RetReturnsBehindTheCall := by
  intro address s
  refine ⟨_, exec_call address s, fun v hsp hlow hhigh => ⟨_, exec_ret v, ?pc, ?sp⟩⟩
  case pc =>
    rw [State.dropWord_pc, State.setPc_pc, State.topWord, hsp, State.readWord_congr hlow hhigh]
    exact State.topWord_pushWord s s.pc
  case sp =>
    rw [State.dropWord_sp, State.setPc_sp, hsp, State.setPc_sp, State.pushWord_sp]
    exact BitVec.sub_add_cancel _ _

/-- Settles O34: RET takes the word that PUSH put on top of the stack. -/
theorem pushRetJumpsThroughRegister : Obligations.PushRetJumpsThroughRegister := by
  intro rs s p
  refine ⟨_, _, exec_push rs s, exec_ret _, ?pc, ?sp, fun _ => rfl, rfl, s.sameMemoryBut_pushWord _⟩
  case pc => exact State.topWord_pushWord s (s.reg rs)
  case sp => exact BitVec.sub_add_cancel _ _

/-! ### A store into the next instruction -/

/-- Settles O35: the word stored is the word at pc of the next step. -/
theorem storeIsSeenByTheNextFetch : Obligations.StoreIsSeenByTheNextFetch := by
  intro rd rs s s' i hfetch haddress hdecode
  obtain ⟨hrun, -⟩ := fetch_next hfetch
  obtain ⟨-, rfl⟩ := fetch_wellFormed hfetch
  refine ⟨_, (step_of_fetch hfetch).trans (exec_str rd rs _), step_of_decodeFirst_complete hrun ?_⟩
  have hpc : s.pc + BitVec.ofNat 16 (2 * (Instr.str rd rs).words) = s.reg rd := haddress.symm
  rw [hpc]
  exact (congrArg (decodeFirst true) (State.readWord_writeWord_same _ _ _)).trans hdecode

end Sys2Proof.Machine


/-! PROOFS. A program in memory (spec/20_memory.md R51, spec/70_reset_and_hazards.md R222): each word placed is read back from its
address, so the step at one of the program's instructions executes it. -/

namespace Sys2Proof.Machine

/-- Placing words leaves every byte that is not below the end of what is placed, counted from its start around the address
space. -/
theorem Memory.readByte_storeWords_other {b : Word} (ws : List Word) : ∀ (m : Memory) {a : Word},
    2 * ws.length ≤ (b - a).toNat → (m.storeWords a ws).readByte b = m.readByte b := by
  induction ws with
  | nil => exact fun _ _ _ => rfl
  | cons w ws ih =>
    intro m a h
    rw [List.length_cons] at h
    have hnext : 2 * ws.length ≤ (b - (a + 2)).toNat := by bv_omega
    have hlow : b ≠ a := by bv_omega
    have hhigh : b ≠ a + 1 := by bv_omega
    rw [Memory.storeWords, ih _ hnext, Memory.readByte_writeWord, if_neg hhigh, if_neg hlow]

/-- Each word of what is placed is read back, as long as what is placed does not overlap itself. -/
theorem Memory.readWord_storeWords {w : Word} {after : List Word} (before : List Word) : ∀ (m : Memory) (a : Word),
    (before ++ w :: after).length ≤ 32768 →
      (m.storeWords a (before ++ w :: after)).readWord (a + BitVec.ofNat 16 (2 * before.length)) = w := by
  induction before with
  | nil =>
    intro m a h
    simp only [List.nil_append, List.length_cons] at h
    have ha : a + BitVec.ofNat 16 (2 * ([] : List Word).length) = a := BitVec.add_zero a
    have hlow : 2 * after.length ≤ (a - (a + 2)).toNat := by bv_omega
    have hhigh : 2 * after.length ≤ (a + 1 - (a + 2)).toNat := by bv_omega
    rw [ha, List.nil_append, Memory.storeWords, Memory.readWord_congr (Memory.readByte_storeWords_other after _ hlow)
      (Memory.readByte_storeWords_other after _ hhigh), Memory.readWord_writeWord_same]
  | cons v before ih =>
    intro m a h
    have ha : a + BitVec.ofNat 16 (2 * (v :: before).length) = a + 2 + BitVec.ofNat 16 (2 * before.length) := by
      rw [List.length_cons, Nat.mul_add, Nat.add_comm, BitVec.ofNat_add, BitVec.add_assoc]
      rfl
    rw [ha, List.cons_append, Memory.storeWords]
    exact ih _ _ (Nat.le_of_succ_le h)

theorem programWords_append (p q : List Instr) :
    Assembler.programWords (p ++ q) = Assembler.programWords p ++ Assembler.programWords q := List.flatMap_append

theorem programWords_cons (i : Instr) (p : List Instr) :
    Assembler.programWords (i :: p) = encode i ++ Assembler.programWords p := List.flatMap_cons

/-- Settles O41: the words at pc are those of the instruction's encoding, whose first one decodes to it. -/
theorem loadedProgramRuns : Obligations.LoadedProgramRuns := by
  intro m origin before i after s hi hlength hrun hmem hpc
  obtain ⟨w, w2, f, hwords, rfl, hdecode⟩ := exists_decodeFirst_of_encode hi
  rw [programWords_append, programWords_cons, hwords] at hlength
  rw [Assembler.loadProgram, programWords_append, programWords_cons, hwords] at hmem
  have hfirst : s.readWord s.pc = w := by
    rw [State.readWord, hmem, hpc]
    exact Memory.readWord_storeWords _ m origin hlength
  have hsecond : f.withSecond (s.readWord (s.pc + 2)) = f.withSecond w2 := by
    cases f with
    | complete => rfl
    | loadValue | callTarget =>
      have hpc2 : s.pc + 2 = origin + BitVec.ofNat 16 (2 * (Assembler.programWords before ++ [w]).length) := by
        rw [hpc, List.length_append, Nat.mul_add, BitVec.ofNat_add, BitVec.add_assoc]
        rfl
      have hread : s.readWord (s.pc + 2) = w2 := by
        have hplaced := Memory.readWord_storeWords (w := w2) (after := Assembler.programWords after)
          (Assembler.programWords before ++ [w]) m origin
        rw [List.append_assoc] at hplaced
        rw [State.readWord, hmem, hpc2]
        exact hplaced hlength
      rw [hread]
  rw [step_of_decodeFirst hrun (hfirst ▸ hdecode true), hsecond, words_withSecond (hdecode true)]

end Sys2Proof.Machine


/-! PROOFS. The start of a run and the state as data (spec/10_state.md R28, R35, R37, spec/20_memory.md R53): launch and reset,
FLAGS as a word, overlapping writes, and the canonical form in which equal memories are equal lists. -/

namespace Sys2Proof.Machine

/-! ### The start of a run -/

/-- Settles O1: every component of a state but `halted` is free in a launch. -/
theorem launchStatesAreTheRunningStates : Obligations.LaunchStatesAreTheRunningStates := by
  intro s
  constructor
  · intro hrun
    refine ⟨{ pcReset := s.pc, spReset := s.sp, memInit := s.mem, regs := s.regs, flags := s.flags }, ?_⟩
    rw [State.launch, ← hrun]
  · rintro ⟨l, rfl⟩
    rfl

/-- Settles O2: the named launch, field by field; its memory lists no byte. -/
theorem resetHoldsTheNamedValues : Obligations.ResetHoldsTheNamedValues := by
  refine ⟨rfl, fun r => ?regs, rfl, rfl, rfl, fun _ => rfl⟩
  case regs => cases r <;> rfl

/-- Settles O3: the memory of reset lists no byte. -/
theorem resetMemoryIsCanonical : Obligations.ResetMemoryIsCanonical := Memory.wf_nil

/-! ### FLAGS as a word (R28) -/

/-- FLAGS as a number: each bit at its weight. -/
theorem Flags.word_toNat (f : Flags) :
    f.word.toNat = f.reserved.toNat * 8 + f.o.toNat * 4 + f.n.toNat * 2 + f.z.toNat := by
  simp only [Flags.word, append_toNat, BitVec.toNat_ofBool]
  omega

/-- The reserved bits stand above the three flags. -/
theorem Flags.word_toNat_div (f : Flags) : f.word.toNat / 8 = f.reserved.toNat := by
  have hz := Bool.toNat_lt f.z
  have hn := Bool.toNat_lt f.n
  have ho := Bool.toNat_lt f.o
  rw [Flags.word_toNat]
  omega

theorem Flags.word_getLsbD (f : Flags) :
    f.word.getLsbD 0 = f.z ∧ f.word.getLsbD 1 = f.n ∧ f.word.getLsbD 2 = f.o := by
  simp only [Flags.word, BitVec.getLsbD_append]
  simp

theorem Flags.ofWord_word (f : Flags) : Flags.ofWord f.word = f := by
  obtain ⟨hz, hn, ho⟩ := f.word_getLsbD
  have hreserved : f.word.extractLsb' 3 13 = f.reserved := by
    apply BitVec.eq_of_toNat_eq
    rw [BitVec.extractLsb'_toNat, Nat.shiftRight_eq_div_pow, show 2 ^ 3 = 8 from rfl, f.word_toNat_div]
    exact Nat.mod_eq_of_lt f.reserved.isLt
  rw [Flags.ofWord, hz, hn, ho, hreserved]

/-- Settles O4: each bit of FLAGS at its place, and the register spelled back from the word. -/
theorem flagsWordLayout : Obligations.FlagsWordLayout := by
  intro f
  obtain ⟨hz, hn, ho⟩ := f.word_getLsbD
  exact ⟨hz, hn, ho, f.word_toNat_div, f.ofWord_word⟩

/-! ### Memory -/

/-- Settles O7: the second write takes the byte that both name. -/
theorem overlappingWritesLaterByteWins : Obligations.OverlappingWritesLaterByteWins := by
  intro s a v w
  have hnext : a + 2 = a + 1 + 1 := by rw [BitVec.add_assoc]; rfl
  have hother : ((s.writeWord a v).writeWord (a + 1) w).readByte a = lowByte v := by
    rw [State.readByte_writeWord_other (ne_add_one a) (by bv_omega), State.readByte_writeWord_low]
  refine ⟨?low, ?shared, ?high⟩
  case low => rw [hother, lowByte_toNat]
  case shared => rw [State.readByte_writeWord_low, lowByte_toNat]
  case high => rw [hnext, State.readByte_writeWord_high, highByte_toNat]

/-- A listed byte of a canonical memory is what its address reads as: no other entry has the address. -/
theorem Memory.readByte_of_mem {m : Memory} (hwf : m.wf) {k : Nat} {v : Byte} (h : (k, v) ∈ m) :
    m.readByte (BitVec.ofNat 16 k) = v := by
  obtain ⟨hrising, hcells⟩ := hwf
  have hk : (BitVec.ofNat 16 k).toNat = k := Nat.mod_eq_of_lt (hcells _ h).1
  clear hcells
  induction m with
  | nil => cases h
  | cons c rest ih =>
    obtain ⟨hbelow, hrest⟩ := List.pairwise_cons.mp hrising
    rw [Memory.readByte, hk]
    rcases List.mem_cons.mp h with rfl | h
    · exact if_pos rfl
    · rw [if_neg (Nat.ne_of_lt (hbelow _ h))]
      exact ih h hrest

/-- A byte that does not read as an unlisted one is listed. -/
theorem Memory.mem_of_readByte_ne {m : Memory} {a : Word} (h : m.readByte a ≠ Config.unlistedByte) :
    (a.toNat, m.readByte a) ∈ m := by
  induction m with
  | nil => exact absurd rfl h
  | cons c rest ih =>
    rw [Memory.readByte] at h ⊢
    split at h
    · next hc =>
      rw [if_pos hc, ← hc]
      exact List.mem_cons_self
    · next hc =>
      rw [if_neg hc]
      exact List.mem_cons_of_mem _ (ih h)

/-- The entries of a canonical memory are the addresses that do not read as unlisted ones, with what they read as. -/
theorem Memory.mem_iff_readByte {m : Memory} (hwf : m.wf) (c : Host.Cell) :
    c ∈ m ↔ c.1 < 65536 ∧ c.2 ≠ Config.unlistedByte ∧ m.readByte (BitVec.ofNat 16 c.1) = c.2 := by
  constructor
  · intro h
    obtain ⟨hlt, hlisted⟩ := hwf.2 c h
    exact ⟨hlt, hlisted, Memory.readByte_of_mem hwf h⟩
  · rintro ⟨hlt, hlisted, hread⟩
    have hmem := Memory.mem_of_readByte_ne (m := m) (a := BitVec.ofNat 16 c.1) (hread ▸ hlisted)
    rw [hread, BitVec.toNat_ofNat, Nat.mod_eq_of_lt hlt] at hmem
    exact hmem

/-- Settles O8: the reads fix the entries, and the rising addresses fix their order. -/
theorem canonicalMemoriesEqualWhenReadsAgree : Obligations.CanonicalMemoriesEqualWhenReadsAgree := by
  intro m m' hwf hwf' hreads
  have hirrefl : Std.Irrefl fun x y : Host.Cell => x.1 < y.1 := ⟨fun x => Nat.lt_irrefl x.1⟩
  have hantisymm : Std.Antisymm fun x y : Host.Cell => x.1 < y.1 := ⟨fun _ _ h h' => absurd h (Nat.lt_asymm h')⟩
  refine List.Pairwise.eq_of_mem_iff hwf.1 hwf'.1 fun c => ?_
  rw [Memory.mem_iff_readByte hwf, Memory.mem_iff_readByte hwf', hreads]

end Sys2Proof.Machine


/-! PROOFS. The assembler (spec/30_encoding.md R93 to R97): what a number that fits and one that does not give, what a built
instruction is, and the program and the label values that the statements make. -/

namespace Sys2Proof.Assembler

open Sys2Proof.Machine

/-! ### Numbers and their fields (R97) -/

theorem fitWord_of_le {n : Nat} (h : n ≤ 65535) : fitWord n = .ok (BitVec.ofNat 16 n) := if_pos (Nat.lt_succ_of_le h)

theorem fitWord_of_gt {n : Nat} (h : 65535 < n) : fitWord n = .error .operandOutOfRange := if_neg (by omega)

/-- A number becomes a word that is that number. -/
theorem toNat_of_fitWord {n : Nat} {w : Word} (h : fitWord n = .ok w) : w.toNat = n := by
  rw [fitWord] at h
  split at h
  · next hlt =>
    obtain rfl := Except.ok.inj h
    exact Nat.mod_eq_of_lt hlt
  · cases h

theorem fitFields_eq_ok_iff {i j : Instr} : fitFields i = .ok j ↔ i.wellFormed = true ∧ i = j := by
  rw [fitFields]
  split
  · next h => simp [h]
  · next h => simp [h]

/-- An instruction that does not fit its fields is rejected. -/
theorem fitFields_of_not_wellFormed {i : Instr} (h : i.wellFormed = false) : fitFields i = .error .operandOutOfRange := by
  rw [fitFields, h]
  rfl

/-! ### What is built -/

/-- The instruction is well-formed, and has the mnemonic and the number that were written. -/
def BuiltFrom (mnemonic : String) (number : Option Nat) (i : Instr) : Prop :=
  i.mnemonic = mnemonic ∧ immediate i = number ∧ i.wellFormed = true

theorem builtFrom_of_buildPlain {mnemonic : String} {i : Instr} (h : buildPlain mnemonic = .ok i) :
    BuiltFrom mnemonic none i := by
  rw [buildPlain.eq_def] at h
  split at h
  case h_4 => cases h
  all_goals
    obtain rfl := Except.ok.inj h
    exact ⟨rfl, rfl, rfl⟩

theorem builtFrom_of_buildRegister {mnemonic : String} {r : Reg} {i : Instr} (h : buildRegister mnemonic r = .ok i) :
    BuiltFrom mnemonic none i := by
  rw [buildRegister.eq_def] at h
  split at h
  case h_4 => cases h
  all_goals
    obtain rfl := Except.ok.inj h
    exact ⟨rfl, rfl, rfl⟩

theorem builtFrom_of_buildRegisters {mnemonic : String} {rd rs : Reg} {i : Instr}
    (h : buildRegisters mnemonic rd rs = .ok i) : BuiltFrom mnemonic none i := by
  rw [buildRegisters.eq_def] at h
  split at h
  case h_10 => cases h
  all_goals
    obtain rfl := Except.ok.inj h
    exact ⟨rfl, rfl, rfl⟩

theorem builtFrom_of_buildImmediate {mnemonic : String} {rd : Reg} {n : Nat} {i : Instr}
    (h : buildImmediate mnemonic rd n = .ok i) : BuiltFrom mnemonic (some n) i := by
  rw [buildImmediate.eq_def] at h
  split at h
  case h_1 =>
    split at h
    case h_1 value hvalue =>
      obtain rfl := Except.ok.inj h
      exact ⟨rfl, congrArg some (toNat_of_fitWord hvalue), rfl⟩
    case h_2 => cases h
  case h_2 | h_3 =>
    obtain ⟨hwf, rfl⟩ := fitFields_eq_ok_iff.mp h
    exact ⟨rfl, rfl, hwf⟩
  case h_4 => cases h

theorem builtFrom_of_buildAddress {mnemonic : String} {n : Nat} {i : Instr} (h : buildAddress mnemonic n = .ok i) :
    BuiltFrom mnemonic (some n) i := by
  rw [buildAddress] at h
  split at h
  case h_1 => cases h
  case h_2 address haddress =>
    have hnumber := congrArg some (toNat_of_fitWord haddress)
    split at h
    case h_1 | h_2 | h_3 | h_4 =>
      obtain ⟨hwf, rfl⟩ := fitFields_eq_ok_iff.mp h
      exact ⟨rfl, hnumber, hwf⟩
    case h_5 =>
      obtain rfl := Except.ok.inj h
      exact ⟨rfl, hnumber, rfl⟩
    case h_6 => cases h

/-- What a statement is built to, said once: a well-formed instruction of its mnemonic with the number it writes. -/
theorem builtFrom_of_build {labels : List (String × Nat)} {mnemonic : String} {operands : List Operand} {i : Instr}
    (h : build labels mnemonic operands = .ok i) : BuiltFrom mnemonic (writtenNumber labels operands) i := by
  rw [build.eq_def] at h
  split at h
  case h_1 => exact builtFrom_of_buildPlain h
  case h_2 => exact builtFrom_of_buildRegister h
  case h_3 => exact builtFrom_of_buildRegisters h
  case h_4 | h_5 => exact builtFrom_of_buildImmediate h
  case h_6 => exact builtFrom_of_buildAddress h
  case h_7 name =>
    split at h
    case h_1 n hn =>
      rw [writtenNumber, hn]
      exact builtFrom_of_buildAddress h
    case h_2 => cases h
  case h_8 => cases h

/-! ### Programs -/

/-- A program begins with the instruction that its first statement writes, and each of the two must be built. -/
theorem buildAll_instruction_eq_ok_iff {labels : List (String × Nat)} {mnemonic : String} {operands : List Operand}
    {rest : List Statement} {program : List Instr} :
    buildAll labels (.instruction mnemonic operands :: rest) = .ok program ↔
      ∃ i is, build labels mnemonic operands = .ok i ∧ buildAll labels rest = .ok is ∧ program = i :: is := by
  rw [buildAll]
  cases build labels mnemonic operands with
  | error e => simp
  | ok i =>
    cases buildAll labels rest with
    | error e => simp
    | ok is => simp [@eq_comm _ program]

/-- Every instruction of a program is one that was built. -/
theorem wellFormed_of_mem_buildAll {labels : List (String × Nat)} {statements : List Statement} :
    ∀ {program : List Instr}, buildAll labels statements = .ok program → ∀ i ∈ program, i.wellFormed = true := by
  induction statements with
  | nil =>
    intro program h i hi
    obtain rfl := Except.ok.inj h
    cases hi
  | cons statement rest ih =>
    cases statement with
    | label => exact ih
    | instruction mnemonic operands =>
      intro program h i hi
      obtain ⟨j, is, hj, his, rfl⟩ := buildAll_instruction_eq_ok_iff.mp h
      rcases List.mem_cons.mp hi with rfl | hi
      · obtain ⟨-, -, hwf⟩ := builtFrom_of_build hj
        exact hwf
      · exact ih his i hi

/-- A program was built from every one of its statements. -/
theorem exists_build_of_mem_statements {labels : List (String × Nat)} {mnemonic : String} {operands : List Operand}
    {statements : List Statement} (hmem : .instruction mnemonic operands ∈ statements) :
    ∀ {program : List Instr}, buildAll labels statements = .ok program → ∃ i, build labels mnemonic operands = .ok i := by
  induction statements with
  | nil => cases hmem
  | cons statement rest ih =>
    intro program h
    cases statement with
    | label =>
      exact ih ((List.mem_cons.mp hmem).resolve_left nofun) h
    | instruction m ops =>
      obtain ⟨j, is, hj, his, rfl⟩ := buildAll_instruction_eq_ok_iff.mp h
      rcases List.mem_cons.mp hmem with heq | hmem
      · obtain ⟨rfl, rfl⟩ := Statement.instruction.inj heq
        exact ⟨j, hj⟩
      · exact ih hmem his

/-- An assembled program was built from its statements and their labels. -/
theorem exists_buildAll_of_assemble {origin : Nat} {source : String} {program : List Instr}
    (h : assemble origin source = .ok program) :
    ∃ labels statements, buildAll labels statements = .ok program := by
  rw [assemble] at h
  split at h
  · cases h
  · next statements _ =>
    dsimp only at h
    split at h
    · exact ⟨_, statements, h⟩
    · cases h

/-! ### What is accepted and what is rejected -/

/-- No address instruction takes a number that is no word. -/
theorem buildAddress_of_gt (mnemonic : String) {n : Nat} (h : 65535 < n) :
    buildAddress mnemonic n = .error .operandOutOfRange := by
  rw [buildAddress, fitWord_of_gt h]

/-- A jump is built by the check of its address. -/
theorem exists_jump_of_mem {name : String} (hname : name ∈ ["JMP", "JZ", "JNZ", "JN"]) :
    ∃ jump : Word → Instr, (∀ a, (jump a).wellFormed = jumpAddressFits a) ∧
      ∀ n ≤ 65535, buildAddress name n = fitFields (jump (BitVec.ofNat 16 n)) := by
  simp only [List.mem_cons, List.not_mem_nil, or_false] at hname
  rcases hname with rfl | rfl | rfl | rfl
  · exact ⟨.jmp, fun _ => rfl, fun n h => by rw [buildAddress, fitWord_of_le h]; rfl⟩
  · exact ⟨.jz, fun _ => rfl, fun n h => by rw [buildAddress, fitWord_of_le h]; rfl⟩
  · exact ⟨.jnz, fun _ => rfl, fun n h => by rw [buildAddress, fitWord_of_le h]; rfl⟩
  · exact ⟨.jn, fun _ => rfl, fun n h => by rw [buildAddress, fitWord_of_le h]; rfl⟩

/-- A jump takes the addresses up to 2047 and no other number (R97). -/
theorem buildAddress_jump {name : String} (hname : name ∈ ["JMP", "JZ", "JNZ", "JN"]) (n : Nat) :
    (2047 < n → buildAddress name n = .error .operandOutOfRange) ∧
      (n ≤ 2047 → ∃ i, buildAddress name n = .ok i) := by
  obtain ⟨jump, hwf, hbuild⟩ := exists_jump_of_mem hname
  have hfits (h : n ≤ 65535) : (jump (BitVec.ofNat 16 n)).wellFormed = decide (n ≤ 2047) := by
    rw [hwf, jumpAddressFits, BitVec.toNat_ofNat, Nat.mod_eq_of_lt (Nat.lt_succ_of_le h)]
  constructor
  · intro hgt
    by_cases hword : n ≤ 65535
    · rw [hbuild n hword]
      exact fitFields_of_not_wellFormed ((hfits hword).trans (decide_eq_false (Nat.not_le_of_lt hgt)))
    · exact buildAddress_of_gt name (Nat.lt_of_not_le hword)
  · intro hle
    have hword : n ≤ 65535 := by omega
    rw [hbuild n hword]
    exact ⟨_, fitFields_eq_ok_iff.mpr ⟨(hfits hword).trans (decide_eq_true hle), rfl⟩⟩

/-- A shift is built by the check of its count. -/
theorem exists_shift_of_mem {name : String} (hname : name ∈ ["SHL", "SHR"]) (rd : Reg) (n : Nat) :
    ∃ shift : Instr, shift.wellFormed = shiftCountFits n ∧ destination shift = some rd ∧
      buildImmediate name rd n = fitFields shift := by
  simp only [List.mem_cons, List.not_mem_nil, or_false] at hname
  rcases hname with rfl | rfl
  · exact ⟨.shl rd n, rfl, rfl, rfl⟩
  · exact ⟨.shr rd n, rfl, rfl, rfl⟩

/-- Settles O58: whatever is built carries its number and fits, so each clause asks only what is accepted. -/
theorem assembledProgramIsWellFormed : Obligations.AssembledProgramIsWellFormed := by
  refine ⟨?program, ?jumps, ?call, ?shifts, ?load, ?number, ?rejected⟩
  case program =>
    intro origin source program h
    obtain ⟨labels, statements, hbuild⟩ := exists_buildAll_of_assemble h
    exact wellFormed_of_mem_buildAll hbuild
  case jumps =>
    intro name hname n
    obtain ⟨hreject, haccept⟩ := buildAddress_jump hname n
    refine ⟨hreject, fun hle => ?_⟩
    obtain ⟨i, hi⟩ := haccept hle
    obtain ⟨hmnemonic, hnumber, -⟩ := builtFrom_of_buildAddress hi
    exact ⟨i, hi, hmnemonic, hnumber⟩
  case call =>
    refine fun n => ⟨buildAddress_of_gt "CALL", fun hle => ?_⟩
    have hi : buildAddress "CALL" n = .ok (.call (BitVec.ofNat 16 n)) := by
      rw [buildAddress, fitWord_of_le hle]
      rfl
    obtain ⟨hmnemonic, hnumber, -⟩ := builtFrom_of_buildAddress hi
    exact ⟨_, hi, hmnemonic, hnumber⟩
  case shifts =>
    intro name hname rd n
    obtain ⟨shift, hwf, hrd, hbuild⟩ := exists_shift_of_mem hname rd n
    constructor
    · intro hgt
      rw [hbuild]
      exact fitFields_of_not_wellFormed (hwf.trans (decide_eq_false (Nat.not_le_of_lt hgt)))
    · intro hle
      have hi := hbuild.trans (fitFields_eq_ok_iff.mpr ⟨hwf.trans (decide_eq_true hle), rfl⟩)
      obtain ⟨hmnemonic, hnumber, -⟩ := builtFrom_of_buildImmediate hi
      exact ⟨shift, hi, hmnemonic, hrd, hnumber⟩
  case load =>
    refine fun rd n => ⟨fun hgt => ?_, fun hle => ?_⟩
    · rw [buildImmediate, fitWord_of_gt hgt]
    · have hi : buildImmediate "LOAD" rd n = .ok (.load rd (BitVec.ofNat 16 n)) := by
        rw [buildImmediate, fitWord_of_le hle]
      obtain ⟨hmnemonic, hnumber, -⟩ := builtFrom_of_buildImmediate hi
      exact ⟨_, hi, hmnemonic, rfl, hnumber⟩
  case number =>
    intro labels mnemonic operands i h
    obtain ⟨hname, hnumber, -⟩ := builtFrom_of_build h
    exact ⟨hname, hnumber⟩
  case rejected =>
    intro labels statements mnemonic operands e hmem he program hprogram
    obtain ⟨i, hi⟩ := exists_build_of_mem_statements hmem hprogram
    rw [hi] at he
    cases he

/-! ### Labels (R94) -/

/-- The length of a statement is that of the instruction it writes. -/
theorem words_of_build {labels : List (String × Nat)} {mnemonic : String} {operands : List Operand} {i : Instr}
    (h : build labels mnemonic operands = .ok i) : (Statement.instruction mnemonic operands).words = i.words := by
  obtain ⟨rfl, -, -⟩ := builtFrom_of_build h
  cases i <;> rfl

/-- Settles O59, along the statements before the label: a label takes no room, an instruction its words. -/
theorem labelIsTheNextInstructionsAddress : Obligations.LabelIsTheNextInstructionsAddress := by
  intro origin labels before after name program h
  induction before generalizing origin program with
  | nil =>
    obtain rfl := Except.ok.inj h
    exact List.mem_cons_self
  | cons statement rest ih =>
    cases statement with
    | label => exact List.mem_cons_of_mem _ (ih origin program h)
    | instruction mnemonic operands =>
      obtain ⟨i, is, hi, his, rfl⟩ := buildAll_instruction_eq_ok_iff.mp h
      have hhere : origin + 2 * (programWords (i :: is)).length =
          origin + 2 * (Statement.instruction mnemonic operands).words + 2 * (programWords is).length := by
        rw [programWords_cons, List.length_append, encode_length, words_of_build hi]
        omega
      rw [hhere]
      exact ih _ is his

end Sys2Proof.Assembler


/-! PROOFS. The parameters of the step (spec/00_scope.md R7, spec/20_memory.md R60, spec/30_encoding.md R89): the bytes a step
accesses as the list that MEM_MAP is asked for one by one, and the lenient reading of a word as the strict reading of the word
with its unused fields cleared. -/

namespace Sys2Proof

/-! ### Unused fields cleared (R88, R89) -/

/-- The bits of a word that a row's instruction is made of: OP and the fields it uses. -/
def usedBits (row : OpcodeRow) : Word := 0xF800 ||| ~~~row.mask

theorem usedBits_of_mem_opcodeRows : ∀ row ∈ opcodeRows,
    usedBits row &&& 0xF800 = 0xF800 ∧ usedBits row &&& unusedBits row = 0 := by
  decide

section Keep
variable {keep : Word} (w : Word)

theorem dstField_and (h : keep.extractLsb' 8 3 = BitVec.allOnes 3) : dstField (w &&& keep) = dstField w := by
  rw [dstField, BitVec.extractLsb'_and, h, BitVec.and_allOnes, dstField]

theorem srcField_and (h : keep.extractLsb' 5 3 = BitVec.allOnes 3) : srcField (w &&& keep) = srcField w := by
  rw [srcField, BitVec.extractLsb'_and, h, BitVec.and_allOnes, srcField]

theorem immField_and (h : keep.extractLsb' 0 5 = BitVec.allOnes 5) : immField (w &&& keep) = immField w := by
  rw [immField, BitVec.extractLsb'_and, h, BitVec.and_allOnes, immField]

theorem addressField_and (h : keep.extractLsb' 0 11 = BitVec.allOnes 11) : addressField (w &&& keep) = addressField w := by
  rw [addressField, BitVec.extractLsb'_and, h, BitVec.and_allOnes, addressField]

end Keep

/-- What the lenient reading makes of a word is what the strict one makes of it with its unused fields cleared: the row's fields
are read from the bits that stay. -/
theorem decodeFirst_lenient_eq_strict_of_cleared {row : OpcodeRow} (hrow : row ∈ opcodeRows) {w : Word}
    (hw : w &&& 0xF800 = row.pattern) :
    ∃ f, decodeFirst false w = .ok f ∧ decodeFirst true (w &&& usedBits row) = .ok f := by
  obtain ⟨hkeepOp, hkeepUnused⟩ := usedBits_of_mem_opcodeRows row hrow
  have hop : opField w = opField row.pattern := by rw [← hw, opField_and_opMask]
  have hopCleared : opField (w &&& usedBits row) = opField row.pattern := by
    rw [← hw, ← opField_and_opMask (w &&& usedBits row), BitVec.and_assoc, hkeepOp]
  have hcleared : w &&& usedBits row &&& unusedBits row = 0 := by
    rw [BitVec.and_assoc, hkeepUnused]
    exact BitVec.and_zero
  rw [decodeFirst, decodeFirst, hop, hopCleared]
  fin_cases hrow
  -- NOP and LOAD
  · exact ⟨_, rfl, checkUnused_eq_ok_iff.mpr ⟨rfl, fun _ => hcleared⟩⟩
  · exact ⟨_, rfl, checkUnused_eq_ok_iff.mpr ⟨by rw [dstField_and w rfl], fun _ => hcleared⟩⟩
  -- MOV to XOR
  iterate 6
    exact ⟨_, rfl, checkUnused_eq_ok_iff.mpr ⟨by rw [dstField_and w rfl, srcField_and w rfl], fun _ => hcleared⟩⟩
  -- NOT
  · exact ⟨_, rfl, checkUnused_eq_ok_iff.mpr ⟨by rw [dstField_and w rfl], fun _ => hcleared⟩⟩
  -- SHL and SHR
  iterate 2
    exact ⟨_, rfl, checkUnused_eq_ok_iff.mpr ⟨by rw [dstField_and w rfl, immField_and w rfl], fun _ => hcleared⟩⟩
  -- CMP
  · exact ⟨_, rfl, checkUnused_eq_ok_iff.mpr ⟨by rw [dstField_and w rfl, srcField_and w rfl], fun _ => hcleared⟩⟩
  -- the four jumps
  iterate 4 exact ⟨_, rfl, by rw [addressField_and w rfl]; rfl⟩
  -- LDR and STR
  iterate 2
    exact ⟨_, rfl, checkUnused_eq_ok_iff.mpr ⟨by rw [dstField_and w rfl, srcField_and w rfl], fun _ => hcleared⟩⟩
  -- PUSH and POP
  iterate 2 exact ⟨_, rfl, checkUnused_eq_ok_iff.mpr ⟨by rw [dstField_and w rfl], fun _ => hcleared⟩⟩
  -- CALL, RET and HALT
  iterate 3 exact ⟨_, rfl, checkUnused_eq_ok_iff.mpr ⟨rfl, fun _ => hcleared⟩⟩

end Sys2Proof

namespace Sys2Proof.Machine

/-! ### The bytes of a step under MEM_MAP (R60, R66) -/

/-- Accesses to the bytes at `as`, in order, then `go`: refused at the first address where MEM_MAP has no RAM. -/
def ifAllRam {α : Type} (p : Parameters) : List Word → Host.Outcome α Fault Refusal → Host.Outcome α Fault Refusal
  | [], go => go
  | a :: as, go => if p.memMap a then ifAllRam p as go else .refused (.outsideMemMap a)

section IfAllRam
variable {α : Type} {p : Parameters} {go : Host.Outcome α Fault Refusal}

/-- A word access is the access to its two bytes, if there is one. -/
theorem ifRam_eq_ifAllRam (p : Parameters) (a : Option Word) (go : Host.Outcome α Fault Refusal) :
    ifRam p a go = ifAllRam p (wordBytes a) go := by
  cases a with
  | none => rfl
  | some a =>
    simp only [ifRam, wordBytes_some, ifAllRam]
    cases p.memMap a <;> cases p.memMap (a + 1) <;> rfl

theorem ifAllRam_append (as bs : List Word) : ifAllRam p (as ++ bs) go = ifAllRam p as (ifAllRam p bs go) := by
  induction as with
  | nil => rfl
  | cons a as ih => rw [List.cons_append, ifAllRam, ifAllRam, ih]

theorem ifAllRam_of_forall {as : List Word} (h : ∀ a ∈ as, p.memMap a = true) : ifAllRam p as go = go := by
  induction as with
  | nil => rfl
  | cons a as ih =>
    obtain ⟨ha, has⟩ := List.forall_mem_cons.mp h
    rw [ifAllRam, if_pos ha, ih has]

theorem ifAllRam_of_first {before : List Word} {a : Word} (after : List Word) (hbefore : ∀ b ∈ before, p.memMap b = true)
    (ha : p.memMap a = false) : ifAllRam p (before ++ a :: after) go = .refused (.outsideMemMap a) := by
  rw [ifAllRam_append, ifAllRam_of_forall hbefore, ifAllRam, ha]
  rfl

end IfAllRam

/-! ### The step under any parameters -/

/-- The step goes on with what the fetch answers. -/
def afterFetch (p : Parameters) : Host.Outcome (Instr × State) Fault Refusal → Host.Outcome State Fault Refusal
  | .next (i, s) => ifRam p (dataAddress s i) (exec i s)
  | .fault r => .fault r
  | .refused r => .refused r

theorem stepUnder_eq_afterFetch (p : Parameters) (s : State) : stepUnder p s = afterFetch p (fetchUnder p s) := by
  rw [stepUnder]
  cases fetchUnder p s <;> rfl

/-- A byte that is no RAM ends the fetch and with it the step. -/
theorem afterFetch_ifAllRam (p : Parameters) (as : List Word) (go : Host.Outcome (Instr × State) Fault Refusal) :
    afterFetch p (ifAllRam p as go) = ifAllRam p as (afterFetch p go) := by
  induction as with
  | nil => rfl
  | cons a as ih =>
    rw [ifAllRam, ifAllRam]
    split
    · exact ih
    · rfl

section Running
variable {p : Parameters} {s : State} (hrun : s.halted = false)
include hrun

/-- The step from a word that is no instruction's: two bytes, then the fault. -/
theorem stepUnder_of_decodeFirst_error {e : WordError}
    (hdecode : decodeFirst p.strictUnusedFields (s.readWord s.pc) = .error e) :
    stepUnder p s = ifAllRam p (accessedBytes p.strictUnusedFields s) (.fault (faultOf s.pc (s.readWord s.pc) e)) := by
  rw [stepUnder_eq_afterFetch, fetchUnder, hrun, hdecode, ifRam_eq_ifAllRam, accessedBytes, hdecode]
  exact afterFetch_ifAllRam p _ _

/-- The step from an instruction's word: the bytes of its words and of its data, then the meaning. -/
theorem stepUnder_of_decodeFirst {f : FirstWord} (hdecode : decodeFirst p.strictUnusedFields (s.readWord s.pc) = .ok f) :
    stepUnder p s = ifAllRam p (accessedBytes p.strictUnusedFields s)
      (exec (f.withSecond (s.readWord (s.pc + 2))) (s.setPc (s.pc + BitVec.ofNat 16 (2 * f.words)))) := by
  rw [stepUnder_eq_afterFetch, fetchUnder, hrun, hdecode, ifRam_eq_ifAllRam, accessedBytes, hdecode]
  simp only [ifRam_eq_ifAllRam, ifAllRam_append, fetchSecond_setPc]
  rw [if_neg Bool.false_ne_true, afterFetch_ifAllRam, afterFetch_ifAllRam, afterFetch, ifRam_eq_ifAllRam]

/-- The step under a MEM_MAP asks it for each byte the step accesses, and is otherwise the step of the machine that has RAM
everywhere. -/
theorem stepUnder_eq_ifAllRam : stepUnder p s =
    ifAllRam p (accessedBytes p.strictUnusedFields s) (stepUnder { p with memMap := Config.memMap } s) := by
  have hram (as : List Word) (go : Host.Outcome State Fault Refusal) :
      ifAllRam { p with memMap := Config.memMap } as go = go := ifAllRam_of_forall fun _ _ => rfl
  cases hdecode : decodeFirst p.strictUnusedFields (s.readWord s.pc) with
  | error e =>
    rw [stepUnder_of_decodeFirst_error hrun hdecode,
      stepUnder_of_decodeFirst_error (p := { p with memMap := Config.memMap }) hrun hdecode, hram]
  | ok f =>
    rw [stepUnder_of_decodeFirst hrun hdecode,
      stepUnder_of_decodeFirst (p := { p with memMap := Config.memMap }) hrun hdecode, hram]

end Running

theorem stepUnder_of_halted (p : Parameters) {s : State} (h : s.halted = true) :
    stepUnder p s = .refused .processorHalted := by
  rw [stepUnder_eq_afterFetch, fetchUnder, if_pos h]
  rfl

/-- Settles O60: MEM_MAP is asked byte by byte, and the lenient reading clears the unused fields. -/
theorem parametersOfTheStep : Obligations.ParametersOfTheStep := by
  refine ⟨fun p s => ⟨stepUnder_of_halted p, ?ram, ?noRam⟩, ?lenient⟩
  case ram =>
    intro hrun hram
    rw [stepUnder_eq_ifAllRam hrun, ifAllRam_of_forall hram]
  case noRam =>
    intro before a after hrun haccessed hbefore ha
    rw [stepUnder_eq_ifAllRam hrun, haccessed, ifAllRam_of_first after hbefore ha]
  case lenient =>
    intro row hrow s hrun hw
    obtain ⟨f, hlenient, hstrict⟩ := decodeFirst_lenient_eq_strict_of_cleared hrow hw
    refine ⟨f, hstrict, ?_⟩
    rw [stepUnder_of_decodeFirst (p := { Config.parameters with strictUnusedFields := false }) hrun hlenient]
    exact ifAllRam_of_forall fun _ _ => rfl

end Sys2Proof.Machine
